-- ==== Sys2Proof/Word.lean ====
section
/-! DEFINITION. The value types of the machine: a 16-bit word (spec/10_state.md R20), a byte of a
register, and a 3-bit register number (R21, R65). All arithmetic on words is `BitVec` arithmetic,
modulo 2^16 (spec/00_scope.md R6). -/

namespace Sys2Proof

/-- A 16-bit value: a register, a data cell, a data address, the program counter, an instruction word. -/
abbrev Word := BitVec 16

/-- Half a register: the 8-bit immediate of LUI and LLI, and the byte it replaces. -/
abbrev Byte := BitVec 8

/-- A register field: all eight values name a register (spec/30_encoding.md R65). -/
abbrev RegId := BitVec 3

end Sys2Proof
end

