-- ==== Sys2Proof/Syntax.lean ====
section
/-! DEFINITION. The instructions: one constructor per row of spec/opcode_table.json, operands in the
order of the assembly text (spec/30_encoding.md R70). -/

namespace Sys2Proof

/-- An instruction, as the decoder reads it (spec/30_encoding.md R74). -/
inductive Instr where
  /-- `LD rd, offset6(rs1)`, R100. -/
  | ld (rd rs1 : RegId) (offset6 : BitVec 6)
  /-- `ST rs2, offset6(rs1)`, R101. -/
  | st (rs2 rs1 : RegId) (offset6 : BitVec 6)
  /-- `ADD rd, rs1, rs2`, R111. -/
  | add (rd rs1 rs2 : RegId)
  /-- `SUB rd, rs1, rs2`, R112. -/
  | sub (rd rs1 rs2 : RegId)
  /-- `INV rd, rs1`, R113. -/
  | inv (rd rs1 : RegId)
  /-- `LSL rd, rs1, rs2`, R115. -/
  | lsl (rd rs1 rs2 : RegId)
  /-- `LSR rd, rs1, rs2`, R116. -/
  | lsr (rd rs1 rs2 : RegId)
  /-- `AND rd, rs1, rs2`, R117. -/
  | and (rd rs1 rs2 : RegId)
  /-- `OR rd, rs1, rs2`, R118. -/
  | or (rd rs1 rs2 : RegId)
  /-- `SLT rd, rs1, rs2`, R119. -/
  | slt (rd rs1 rs2 : RegId)
  /-- `ILLEGAL(I)`: a word whose opcode is the unassigned 10, R67. It carries the word. -/
  | illegal (word : Word)
  /-- `BEQ rs1, rs2, offset6`, R130. -/
  | beq (rs1 rs2 : RegId) (offset6 : BitVec 6)
  /-- `BNE rs1, rs2, offset6`, R131. -/
  | bne (rs1 rs2 : RegId) (offset6 : BitVec 6)
  /-- `JMP offset12`, R140; the field is `imm12`. -/
  | jmp (imm12 : BitVec 12)
  /-- `LUI rd, imm8`, R150. -/
  | lui (rd : RegId) (imm8 : Byte)
  /-- `LLI rd, imm8`, R151. -/
  | lli (rd : RegId) (imm8 : Byte)
  deriving DecidableEq, Repr

/-- The registers an instruction uses as operands, in the order their definedness is checked
(spec/10_state.md R34, column "Registers read"; R35: `rs1` before `rs2`). -/
def Instr.operands : Instr → List RegId
  | .ld _ rs1 _ => [rs1]
  | .st rs2 rs1 _ => [rs1, rs2]
  | .add _ rs1 rs2 => [rs1, rs2]
  | .sub _ rs1 rs2 => [rs1, rs2]
  | .inv _ rs1 => [rs1]
  | .lsl _ rs1 rs2 => [rs1, rs2]
  | .lsr _ rs1 rs2 => [rs1, rs2]
  | .and _ rs1 rs2 => [rs1, rs2]
  | .or _ rs1 rs2 => [rs1, rs2]
  | .slt _ rs1 rs2 => [rs1, rs2]
  | .illegal _ => []
  | .beq rs1 rs2 _ => [rs1, rs2]
  | .bne rs1 rs2 _ => [rs1, rs2]
  | .jmp _ => []
  | .lui _ _ => []
  | .lli _ _ => []

/-- The register an instruction writes (spec/10_state.md R34, column "Register written"). -/
def Instr.dest : Instr → Option RegId
  | .ld rd _ _ => some rd
  | .st _ _ _ => none
  | .add rd _ _ => some rd
  | .sub rd _ _ => some rd
  | .inv rd _ => some rd
  | .lsl rd _ _ => some rd
  | .lsr rd _ _ => some rd
  | .and rd _ _ => some rd
  | .or rd _ _ => some rd
  | .slt rd _ _ => some rd
  | .illegal _ => none
  | .beq _ _ _ => none
  | .bne _ _ _ => none
  | .jmp _ => none
  | .lui rd _ => some rd
  | .lli rd _ => some rd

end Sys2Proof
end

