-- ==== Sys2Proof/WellFormed.lean ====
section
/-! DEFINITION. Which terms of `Instr` stand for an instruction word. Every field has the width of its
place in the word, so all values of every field are legal (spec/30_encoding.md R65, R69); the one
check is that an `illegal` term carries a word whose opcode is 10 (R67). -/

namespace Sys2Proof

/-- The instruction is the decoding of some word. -/
def Instr.wellFormed : Instr → Bool
  | .ld _ _ _ => true
  | .st _ _ _ => true
  | .add _ _ _ => true
  | .sub _ _ _ => true
  | .inv _ _ => true
  | .lsl _ _ _ => true
  | .lsr _ _ _ => true
  | .and _ _ _ => true
  | .or _ _ _ => true
  | .slt _ _ _ => true
  | .illegal word => word.extractLsb' 12 4 == 10
  | .beq _ _ _ => true
  | .bne _ _ _ => true
  | .jmp _ => true
  | .lui _ _ => true
  | .lli _ _ => true

end Sys2Proof
end

