-- ==== Sys2Proof/Decode.lean ====
section
/-! DEFINITION. The fields of an instruction word, the decoder and the encoder
(spec/30_encoding.md R61, R63, R68, R74, R75). -/

namespace Sys2Proof

/-- `op = I[15:12]`, which alone selects the instruction (R62). -/
def opField (w : Word) : BitVec 4 := w.extractLsb' 12 4

/-- `I[11:9]`: `rs1`, or `rd` of LUI and LLI. -/
def fieldA (w : Word) : RegId := w.extractLsb' 9 3

/-- `I[8:6]`: `rs2`, or `rd` of LD. -/
def fieldB (w : Word) : RegId := w.extractLsb' 6 3

/-- `I[5:3]`: `rd` of data processing. -/
def fieldC (w : Word) : RegId := w.extractLsb' 3 3

/-- `I[5:0]`: `offset6`. -/
def offset6Field (w : Word) : BitVec 6 := w.extractLsb' 0 6

/-- `I[7:0]`: `imm8`. -/
def imm8Field (w : Word) : Byte := w.extractLsb' 0 8

/-- `I[11:0]`: `imm12`. -/
def imm12Field (w : Word) : BitVec 12 := w.extractLsb' 0 12

/-- The decoder, total on all 65,536 words (R74). Opcode 10 is rejected by name as `illegal` (R67).
The last line is opcode 15. -/
def decode (w : Word) : Instr :=
  match opField w with
  | 0 => .ld (fieldB w) (fieldA w) (offset6Field w)
  | 1 => .st (fieldB w) (fieldA w) (offset6Field w)
  | 2 => .add (fieldC w) (fieldA w) (fieldB w)
  | 3 => .sub (fieldC w) (fieldA w) (fieldB w)
  | 4 => .inv (fieldC w) (fieldA w)
  | 5 => .lsl (fieldC w) (fieldA w) (fieldB w)
  | 6 => .lsr (fieldC w) (fieldA w) (fieldB w)
  | 7 => .and (fieldC w) (fieldA w) (fieldB w)
  | 8 => .or (fieldC w) (fieldA w) (fieldB w)
  | 9 => .slt (fieldC w) (fieldA w) (fieldB w)
  | 10 => .illegal w
  | 11 => .beq (fieldA w) (fieldB w) (offset6Field w)
  | 12 => .bne (fieldA w) (fieldB w) (offset6Field w)
  | 13 => .jmp (imm12Field w)
  | 14 => .lui (fieldA w) (imm8Field w)
  | _ => .lli (fieldA w) (imm8Field w)

/-- The opcode of an instruction (R63). -/
def Instr.opcode : Instr → BitVec 4
  | .ld _ _ _ => 0
  | .st _ _ _ => 1
  | .add _ _ _ => 2
  | .sub _ _ _ => 3
  | .inv _ _ => 4
  | .lsl _ _ _ => 5
  | .lsr _ _ _ => 6
  | .and _ _ _ => 7
  | .or _ _ _ => 8
  | .slt _ _ _ => 9
  | .illegal _ => 10
  | .beq _ _ _ => 11
  | .bne _ _ _ => 12
  | .jmp _ => 13
  | .lui _ _ => 14
  | .lli _ _ => 15

/-- The Load word, Store word and Branch layout: `op rs1 b offset6`. -/
def encodeOffset (op : BitVec 4) (a b : RegId) (offset6 : BitVec 6) : Word := op ++ a ++ b ++ offset6

/-- The Data processing layout: `op rs1 rs2 rd 000`. -/
def encodeData (op : BitVec 4) (rs1 rs2 rd : RegId) : Word := op ++ rs1 ++ rs2 ++ rd ++ 0#3

/-- The Load imm layout: `op rd 0 imm8`. -/
def encodeImm (op : BitVec 4) (rd : RegId) (imm8 : Byte) : Word := op ++ rd ++ 0#1 ++ imm8

/-- The encoder: the canonical word of an instruction, every ignored bit 0 (R75). An `illegal` term
stands for the word it carries. -/
def encode : Instr → Word
  | .ld rd rs1 offset6 => encodeOffset 0 rs1 rd offset6
  | .st rs2 rs1 offset6 => encodeOffset 1 rs1 rs2 offset6
  | .add rd rs1 rs2 => encodeData 2 rs1 rs2 rd
  | .sub rd rs1 rs2 => encodeData 3 rs1 rs2 rd
  | .inv rd rs1 => encodeData 4 rs1 0 rd
  | .lsl rd rs1 rs2 => encodeData 5 rs1 rs2 rd
  | .lsr rd rs1 rs2 => encodeData 6 rs1 rs2 rd
  | .and rd rs1 rs2 => encodeData 7 rs1 rs2 rd
  | .or rd rs1 rs2 => encodeData 8 rs1 rs2 rd
  | .slt rd rs1 rs2 => encodeData 9 rs1 rs2 rd
  | .illegal word => word
  | .beq rs1 rs2 offset6 => encodeOffset 11 rs1 rs2 offset6
  | .bne rs1 rs2 offset6 => encodeOffset 12 rs1 rs2 offset6
  | .jmp imm12 => 13#4 ++ imm12
  | .lui rd imm8 => encodeImm 14 rd imm8
  | .lli rd imm8 => encodeImm 15 rd imm8

/-- The bits of a word that take no part in its meaning, as a mask (R68): `I[2:0]` of data processing,
also `I[8:6]` of INV, `I[8]` of LUI and LLI. -/
def ignoredBits (w : Word) : Word :=
  match opField w with
  | 2 => 0x0007
  | 3 => 0x0007
  | 4 => 0x01C7
  | 5 => 0x0007
  | 6 => 0x0007
  | 7 => 0x0007
  | 8 => 0x0007
  | 9 => 0x0007
  | 14 => 0x0100
  | 15 => 0x0100
  | _ => 0

/-- The word is in canonical form: its ignored bits are 0 (R68, R75). -/
def isCanonical (w : Word) : Bool := w &&& ignoredBits w == 0

/-- The decoder on a word numbered as spec/opcode_table.json numbers it: 16 bits, the lowest bit 0. -/
def decodeTableWord (nbits w : Nat) : Option Instr :=
  some (decode (BitVec.ofNat 16 (w % 2 ^ nbits)))

end Sys2Proof
end

