-- ==== Sys2Proof/Config.lean ====
section
/-! DEFINITION. The parameters of spec/00_scope.md section 5 that have more than one value, with the
spec's defaults, and the one free value. -/

namespace Sys2Proof.Config

/-- `UNINIT_READ` (spec/10_state.md R35): what a read of a register byte or data cell that nothing has
written since reset does. -/
inductive UninitRead where
  /-- The step is the model fault `UninitRead`. The spec's default. -/
  | fault
  /-- Every unwritten byte and cell holds an arbitrary, stable value. -/
  | anyValue
  deriving DecidableEq, Repr

/-- `SHIFT_AMOUNT` (spec/92_eei_decisions.md D11): how LSL and LSR take the count from `x[rs2]`. -/
inductive ShiftAmount where
  /-- The whole unsigned 16-bit value. The spec's default. -/
  | wholeRegister
  /-- Only the low 4 bits: the alternative D11 names. -/
  | lowFourBits
  deriving DecidableEq, Repr

/-- The data addresses `first` to `last`, both included. -/
structure AddrRange where
  first : Word
  last : Word
  deriving DecidableEq, Repr

/-- The parameters of the machine, fixed for a run: no step changes them. -/
structure Params where
  /-- `UNINIT_READ`. `specStep` acts on it; no meaning of an instruction does (log entry 2). -/
  uninitRead : UninitRead
  /-- `SHIFT_AMOUNT`. -/
  shiftAmount : ShiftAmount
  /-- `SLT_SIGNED` (D12): true compares signed numbers, false unsigned ones. -/
  sltSigned : Bool
  /-- `DMEM_VALID` (D17), by its complement: the data addresses that do not exist. -/
  dmemAbsent : List AddrRange
  deriving DecidableEq, Repr

/-- `RESET_PC` (D7). -/
def resetPc : Word := 0x0000

/-- The defaults of spec/00_scope.md section 5, with which the machine starts. -/
def specDefaults : Params :=
  { uninitRead := .fault, shiftAmount := .wholeRegister, sltSigned := true, dmemAbsent := [] }

/-- FREE VALUE: what the data cell at an address reads as while nothing has written it (R35 under
`UNINIT_READ = any_value`: arbitrary, drawn once and stable). It has no body: nothing can be proved
of its values. Safe: log entry 4. -/
opaque unwrittenCell : Word → Word

end Sys2Proof.Config
end

