-- ==== Sys2Proof/Machine/State.lean ====
section
/-! DEFINITION. The state of the machine (spec/10_state.md R33) as plain data, the reasons a step can
stop (spec/60_exceptions.md R184), and the state after reset (R32). -/

namespace Sys2Proof.Machine

/-- Why a step has no next state. None is a hardware event: the machine raises no exception (R170).
The state does not change. A read of what nothing has written is no reason: the machine goes on with the
bits it holds, and the spec's bookkeeping fault `UninitRead` is an outcome of `specStep`
(Machine/Definedness.lean, log entry 2). -/
inductive Fault where
  /-- `FAULT IllegalOpcode(pc, I)` (R172): raised by the meaning of ILLEGAL. Safe: the model stops where
  the spec gives no behaviour. -/
  | illegalOpcode (pc word : Word)
  /-- `STUCK(fetch, pc)` (R41): raised by `step` when the slot at `pc` holds no instruction. Safe. -/
  | stuckFetch (pc : Word)
  /-- `STUCK(data, pc, addr)` (R45, R46): raised by `withCell` and `withStore` outside `DMEM_VALID`.
  Safe. -/
  | stuckData (pc addr : Word)
  deriving DecidableEq, Repr

/-- Why the model declines to give a step. -/
inductive Refusal where
  /-- The instruction has no meaning in the model: raised by a rejected arm of `exec` only, and `exec`
  has none. Safe. -/
  | notModelled (mnemonic : String)
  deriving DecidableEq, Repr

/-- A general register: 16 bits (R20) and, for each of its two bytes, whether an instruction has
written it since reset (R35). -/
structure Reg where
  value : Word
  /-- `x[i][15:8]` is defined. -/
  hiDefined : Bool
  /-- `x[i][7:0]` is defined. -/
  loDefined : Bool
  deriving DecidableEq, Repr

/-- A store of 16-bit cells as (address, word) pairs. Canonical form (`Memory.wf`): addresses strictly
rising. An unlisted address holds no value, so a listed cell is a defined cell (R35). -/
abbrev Memory := List (Nat × Word)

/-- The state: the spec's triple `(x, pc, DMem)` (R33), and the two things its step takes as
parameters, the program `IMem` (R30) and the parameters of spec/00_scope.md section 5. -/
structure State where
  /-- `x[0]` to `x[7]` (R20, R21). -/
  regs : Vector Reg 8
  /-- The program counter (R23, R25). -/
  pc : Word
  /-- `DMem` (R42), by data address. -/
  dmem : Memory
  /-- `IMem` (R40), by PC value; a slot is listed exactly when `IMEM_VALID` holds of it. -/
  imem : Memory
  /-- The parameters, fixed for a run. -/
  params : Config.Params
  deriving DecidableEq, Repr

/-- A register after reset: both bytes undefined (R32). The value 0 is the model's: DESIGN CHOICE,
unsafe, log entry 1. -/
def Reg.atReset : Reg := { value := 0, hiDefined := false, loDefined := false }

/-- The machine right after reset, before the host loads anything (R32, R190). -/
def State.reset : State :=
  { regs := Vector.replicate 8 Reg.atReset
    pc := Config.resetPc
    dmem := []
    imem := []
    params := Config.specDefaults }

end Sys2Proof.Machine
end

