-- ==== Sys2Proof/Machine/Ops.lean ====
section
/-! DEFINITION. The operations over registers, the program counter and the two stores that every
meaning uses (spec/00_scope.md R7), each checking what spec/60_exceptions.md R184 says it checks. The
machine has no exception entry and no return from one (R174, R175), so there is no operation for
either. -/

namespace Sys2Proof.Machine

/-- What a step answers. -/
abbrev Result := Host.Outcome State Fault Refusal

/-! ### Stores of cells -/

/-- The word at an address, if the cell is listed. -/
def Memory.read : Memory → Nat → Option Word
  | [], _ => none
  | (k, v) :: rest, a => if a = k then some v else Memory.read rest a

/-- Set the word at an address, keeping the addresses strictly rising. -/
def Memory.write : Memory → Nat → Word → Memory
  | [], a, v => [(a, v)]
  | (k, u) :: rest, a, v =>
    if a < k then (a, v) :: (k, u) :: rest
    else if a = k then (a, v) :: rest
    else (k, u) :: Memory.write rest a v

/-- The canonical form: addresses strictly rising, all of them 16-bit addresses (R42). -/
abbrev Memory.wf (m : Memory) : Prop :=
  m.Pairwise (fun c d => c.1 < d.1) ∧ ∀ c ∈ m, c.1 < 65536

/-- The canonical form of the instruction store: every address is a slot, a multiple of 4 (R40). -/
abbrev Memory.slotsWf (m : Memory) : Prop := Memory.wf m ∧ ∀ c ∈ m, c.1 % 4 = 0

/-! ### General registers -/

/-- Register `r`, value and marks. -/
def State.reg (s : State) (r : RegId) : Reg := s.regs[r.toNat]'r.isLt

/-- Replace register `r`, value and marks. Every register write goes through here; no register is
hardwired (R22). -/
def State.setReg (s : State) (r : RegId) (x : Reg) : State :=
  { s with regs := s.regs.set r.toNat x r.isLt }

/-- Both bytes are defined (R35). -/
def Reg.defined (x : Reg) : Bool := x.hiDefined && x.loDefined

/-- `x[i][15:8]`. -/
def Reg.high (x : Reg) : Byte := x.value.extractLsb' 8 8

/-- `x[i][7:0]`. -/
def Reg.low (x : Reg) : Byte := x.value.extractLsb' 0 8

/-- Register `r` may be used as an operand without `UninitRead` (R35): under `UNINIT_READ = any_value`
always, under `fault` when both bytes are defined. Only `specStep` asks; the machine reads any
register. -/
def State.readable (s : State) (r : RegId) : Bool :=
  match s.params.uninitRead with
  | .anyValue => true
  | .fault => (s.reg r).defined

/-- `x[rd] <- v`: both bytes become defined (R7, R35). -/
def State.writeReg (s : State) (rd : RegId) (v : Word) : State :=
  s.setReg rd { value := v, hiDefined := true, loDefined := true }

/-- `x[rd] <- {b, x[rd][7:0]}`: the low byte is kept, value and mark (R35, R150). -/
def State.writeHigh (s : State) (rd : RegId) (b : Byte) : State :=
  s.setReg rd { value := b ++ (s.reg rd).low, hiDefined := true, loDefined := (s.reg rd).loDefined }

/-- `x[rd] <- {x[rd][15:8], b}`: the high byte is kept, value and mark (R35, R151). -/
def State.writeLow (s : State) (rd : RegId) (b : Byte) : State :=
  s.setReg rd { value := (s.reg rd).high ++ b, hiDefined := (s.reg rd).hiDefined, loDefined := true }

/-! ### Program counter -/

/-- `pc <- t`. -/
def State.jumpTo (s : State) (t : Word) : State := { s with pc := t }

/-- `pc <- pc + 4`, the sequential advance, modulo 2^16 (R24, R25). -/
def State.advance (s : State) : State := s.jumpTo (s.pc + 4)

/-! ### Instruction store -/

/-- `IFetch(pc)`: the word in the slot at `pc`, where `IMEM_VALID(pc)` holds (R41). -/
def State.fetch (s : State) : Option Word := Memory.read s.imem s.pc.toNat

/-! ### Data memory -/

/-- The range holds the address. -/
def rangeContains (g : Config.AddrRange) (a : Word) : Bool :=
  g.first.toNat ≤ a.toNat && a.toNat ≤ g.last.toNat

/-- `DMEM_VALID(a)` (D17). -/
def State.dataValid (s : State) (a : Word) : Bool :=
  s.params.dmemAbsent.all fun g => !rangeContains g a

/-- The data cell at `a` may be loaded without `UninitRead` (R35): under `UNINIT_READ = any_value`
always, under `fault` when it is defined. Only `specStep` asks. -/
def State.cellReadable (s : State) (a : Word) : Bool :=
  match s.params.uninitRead with
  | .anyValue => true
  | .fault => (Memory.read s.dmem a.toNat).isSome

/-- What the data cell at `a` reads as: its word, or the free value of its address while nothing has
written it (R35, R45; log entry 4). -/
def State.cell (s : State) (a : Word) : Word :=
  match Memory.read s.dmem a.toNat with
  | some v => v
  | none => Config.unwrittenCell a

/-- `MemRead(a, 16)`: go on with the cell's word (R45). Outside `DMEM_VALID` there is no step. -/
def withCell (s : State) (a : Word) (k : Word → Result) : Result :=
  if s.dataValid a then k (s.cell a) else .fault (.stuckData s.pc a)

/-- The state with `DMem[a] = v`, that cell defined and every other as it was (R46). -/
def State.setCell (s : State) (a v : Word) : State :=
  { s with dmem := Memory.write s.dmem a.toNat v }

/-- `MemWrite(a, 16, v)`: go on with the cell written (R46). Outside `DMEM_VALID` there is no step. -/
def withStore (s : State) (a v : Word) (k : State → Result) : Result :=
  if s.dataValid a then k (s.setCell a v) else .fault (.stuckData s.pc a)

/-! ### The host (spec/70_reset_and_hazards.md R194) -/

/-- The words of a program, one per slot, the first at the given PC value. -/
def programImage : Nat → List Word → Memory
  | _, [] => []
  | a, w :: rest => (a, w) :: programImage (a + 4) rest

/-- The program placed from slot 0x0000 upwards: `IMEM_VALID` holds exactly of the slots filled. -/
def State.loadProgram (s : State) (program : List Word) : State :=
  { s with imem := programImage 0 program }

/-- The data image placed: each listed cell is set, in order. -/
def State.loadData (s : State) (image : List (Word × Word)) : State :=
  image.foldl (fun t c => t.setCell c.1 c.2) s

end Sys2Proof.Machine
end

