-- ==== Sys2Proof/Machine/Operands.lean ====
section
/-! DEFINITION. What the operand forms compute: the effective address (spec/20_memory.md R44), the
targets of control transfer (spec/43_jump.md R142), and the results of the ALU operations
(spec/41_data_processing.md). -/

namespace Sys2Proof.Machine

/-- `(base + sext_16(offset6)) mod 2^16`: register plus unscaled signed offset (R44). -/
def effAddr (base : Word) (offset6 : BitVec 6) : Word := base + offset6.signExtend 16

/-- `(pc + 4 + sext_16(offset6) * 4) mod 2^16`, `pc` the address of the branch itself (R23, R130). -/
def branchTarget (pc : Word) (offset6 : BitVec 6) : Word := pc + 4 + offset6.signExtend 16 * 4

/-- `zext_16(imm12) * 4`: absolute, unsigned (R140, D13). -/
def jumpTarget (imm12 : BitVec 12) : Word := imm12.setWidth 16 * 4

/-- The sum, modulo 2^16 (R111). -/
def addResult (a b : Word) : Word := a + b

/-- The difference, modulo 2^16 (R112). -/
def subResult (a b : Word) : Word := a - b

/-- The bitwise complement (R113). -/
def invResult (a : Word) : Word := ~~~a

/-- The shift count taken from `x[rs2]` (parameter `SHIFT_AMOUNT`, D11). -/
def shiftCount (m : Config.ShiftAmount) (v : Word) : Nat :=
  match m with
  | .wholeRegister => v.toNat
  | .lowFourBits => v.toNat % 16

/-- Logical shift left; a count of 16 or more gives 0 (R115). -/
def lslResult (m : Config.ShiftAmount) (a b : Word) : Word :=
  if 16 ≤ shiftCount m b then 0 else a <<< shiftCount m b

/-- Logical shift right; a count of 16 or more gives 0 (R116). -/
def lsrResult (m : Config.ShiftAmount) (a b : Word) : Word :=
  if 16 ≤ shiftCount m b then 0 else a >>> shiftCount m b

/-- Bitwise and (R117). -/
def andResult (a b : Word) : Word := a &&& b

/-- Bitwise inclusive or (R118). -/
def orResult (a b : Word) : Word := a ||| b

/-- The operand form of data processing with two sources: read `rs1`, read `rs2`, write the result to
`rd`, go on at `pc + 4` (R110). -/
def dataOp (f : Word → Word → Word) (rd rs1 rs2 : RegId) (s : State) : Result :=
  .next (s.writeReg rd (f (s.reg rs1).value (s.reg rs2).value)).advance

end Sys2Proof.Machine
end

