-- ==== Sys2Proof/Machine/Flags.lean ====
section
/-! DEFINITION. Truth values. The machine has no flags and no condition codes (spec/10_state.md R27): a
comparison is made by the instruction that needs it. SLT puts its truth value into a register
(R119); BEQ and BNE act on theirs (R130, R131). -/

namespace Sys2Proof.Machine

/-- `rs1 < rs2`, on signed or on unsigned numbers (parameter `SLT_SIGNED`, D12). It compares the
values, not a truncated difference (R119). -/
def lessThan (signed : Bool) (a b : Word) : Bool := if signed then a.slt b else a.ult b

/-- 0x0001 or 0x0000 (R119). -/
def sltResult (signed : Bool) (a b : Word) : Word := if lessThan signed a b then 1 else 0

/-- All 16 bits equal (R130). -/
def operandsEqual (a b : Word) : Bool := a == b

/-- The operand form of a conditional branch: read `rs1`, read `rs2`, take the branch or go on at
`pc + 4` (R132). -/
def branchIf (cond : Word → Word → Bool) (rs1 rs2 : RegId) (offset6 : BitVec 6) (s : State) : Result :=
  .next (if cond (s.reg rs1).value (s.reg rs2).value then s.jumpTo (branchTarget s.pc offset6)
    else s.advance)

end Sys2Proof.Machine
end

