-- ==== Sys2Proof/Machine/Branch.lean ====
section
/-! DEFINITION. BEQ and BNE (spec/42_branch.md). There is no delay slot (R132). -/

namespace Sys2Proof.Machine

/-- BEQ: taken if the two registers are equal (R130). -/
def execBeq (rs1 rs2 : RegId) (offset6 : BitVec 6) (s : State) : Result :=
  branchIf operandsEqual rs1 rs2 offset6 s

/-- BNE: taken if the two registers differ (R131). -/
def execBne (rs1 rs2 : RegId) (offset6 : BitVec 6) (s : State) : Result :=
  branchIf (fun a b => !operandsEqual a b) rs1 rs2 offset6 s

end Sys2Proof.Machine
end

