-- ==== Sys2Proof/Machine/DataProcessing.lean ====
section
/-! DEFINITION. The eight register-to-register instructions (spec/41_data_processing.md). -/

namespace Sys2Proof.Machine

/-- ADD: sum modulo 2^16 (R111). -/
def execAdd (rd rs1 rs2 : RegId) (s : State) : Result := dataOp addResult rd rs1 rs2 s

/-- SUB: `x[rs1]` minus `x[rs2]`, modulo 2^16 (R112). -/
def execSub (rd rs1 rs2 : RegId) (s : State) : Result := dataOp subResult rd rs1 rs2 s

/-- INV: bitwise complement of the one source (R113). -/
def execInv (rd rs1 : RegId) (s : State) : Result :=
  .next (s.writeReg rd (invResult (s.reg rs1).value)).advance

/-- LSL: logical shift left by the count in `x[rs2]` (R115). -/
def execLsl (rd rs1 rs2 : RegId) (s : State) : Result :=
  dataOp (lslResult s.params.shiftAmount) rd rs1 rs2 s

/-- LSR: logical shift right by the count in `x[rs2]` (R116). -/
def execLsr (rd rs1 rs2 : RegId) (s : State) : Result :=
  dataOp (lsrResult s.params.shiftAmount) rd rs1 rs2 s

/-- AND: bitwise and (R117). -/
def execAnd (rd rs1 rs2 : RegId) (s : State) : Result :=
  dataOp andResult rd rs1 rs2 s

/-- OR: bitwise inclusive or (R118). -/
def execOr (rd rs1 rs2 : RegId) (s : State) : Result :=
  dataOp orResult rd rs1 rs2 s

/-- SLT: 1 if `x[rs1] < x[rs2]`, else 0 (R119). -/
def execSlt (rd rs1 rs2 : RegId) (s : State) : Result :=
  dataOp (sltResult s.params.sltSigned) rd rs1 rs2 s

end Sys2Proof.Machine
end

