-- ==== Sys2Proof/Machine/Illegal.lean ====
section
/-! DEFINITION. The unassigned opcode 10 (spec/30_encoding.md R67, spec/60_exceptions.md R172). -/

namespace Sys2Proof.Machine

/-- ILLEGAL: the model fault `IllegalOpcode(pc, I)`; no state changes and the pc does not move (R172). -/
def execIllegal (word : Word) (s : State) : Result := .fault (.illegalOpcode s.pc word)

end Sys2Proof.Machine
end

