-- ==== Sys2Proof/Machine/Jump.lean ====
section
/-! DEFINITION. JMP (spec/43_jump.md). -/

namespace Sys2Proof.Machine

/-- JMP: `pc <- zext_16(imm12) * 4`; nothing else changes (R140). -/
def execJmp (imm12 : BitVec 12) (s : State) : Result := .next (s.jumpTo (jumpTarget imm12))

end Sys2Proof.Machine
end

