-- ==== Sys2Proof/Machine/LoadImmediate.lean ====
section
/-! DEFINITION. LUI and LLI (spec/44_load_immediate.md). The kept byte is no operand: neither is ever
`UninitRead` (R35). -/

namespace Sys2Proof.Machine

/-- LUI: the high byte becomes `imm8`, the low byte is kept (R150). -/
def execLui (rd : RegId) (imm8 : Byte) (s : State) : Result := .next (s.writeHigh rd imm8).advance

/-- LLI: the low byte becomes `imm8`, the high byte is kept (R151). -/
def execLli (rd : RegId) (imm8 : Byte) (s : State) : Result := .next (s.writeLow rd imm8).advance

end Sys2Proof.Machine
end

