-- ==== Sys2Proof/Machine/LoadStore.lean ====
section
/-! DEFINITION. LD and ST (spec/40_load_store.md). -/

namespace Sys2Proof.Machine

/-- LD: `x[rd] <- DMem[x[rs1] + sext_16(offset6)]` (R100). -/
def execLd (rd rs1 : RegId) (offset6 : BitVec 6) (s : State) : Result :=
  withCell s (effAddr (s.reg rs1).value offset6) fun v => .next (s.writeReg rd v).advance

/-- ST: `DMem[x[rs1] + sext_16(offset6)] <- x[rs2]` (R101). -/
def execSt (rs2 rs1 : RegId) (offset6 : BitVec 6) (s : State) : Result :=
  withStore s (effAddr (s.reg rs1).value offset6) (s.reg rs2).value fun t => .next t.advance

end Sys2Proof.Machine
end

