-- ==== Sys2Proof/Machine/Dispatch.lean ====
section
/-! DEFINITION. One arm per instruction, in the order of spec/opcode_table.json. -/

namespace Sys2Proof.Machine

def exec (i : Instr) (s : State) : Host.Outcome State Fault Refusal :=
  match i with
  | .ld rd rs1 offset6 => Sys2Proof.Machine.execLd rd rs1 offset6 s
  | .st rs2 rs1 offset6 => Sys2Proof.Machine.execSt rs2 rs1 offset6 s
  | .add rd rs1 rs2 => Sys2Proof.Machine.execAdd rd rs1 rs2 s
  | .sub rd rs1 rs2 => Sys2Proof.Machine.execSub rd rs1 rs2 s
  | .inv rd rs1 => Sys2Proof.Machine.execInv rd rs1 s
  | .lsl rd rs1 rs2 => Sys2Proof.Machine.execLsl rd rs1 rs2 s
  | .lsr rd rs1 rs2 => Sys2Proof.Machine.execLsr rd rs1 rs2 s
  | .and rd rs1 rs2 => Sys2Proof.Machine.execAnd rd rs1 rs2 s
  | .or rd rs1 rs2 => Sys2Proof.Machine.execOr rd rs1 rs2 s
  | .slt rd rs1 rs2 => Sys2Proof.Machine.execSlt rd rs1 rs2 s
  | .illegal word => Sys2Proof.Machine.execIllegal word s
  | .beq rs1 rs2 offset6 => Sys2Proof.Machine.execBeq rs1 rs2 offset6 s
  | .bne rs1 rs2 offset6 => Sys2Proof.Machine.execBne rs1 rs2 offset6 s
  | .jmp imm12 => Sys2Proof.Machine.execJmp imm12 s
  | .lui rd imm8 => Sys2Proof.Machine.execLui rd imm8 s
  | .lli rd imm8 => Sys2Proof.Machine.execLli rd imm8 s

end Sys2Proof.Machine
end

