-- ==== Sys2Proof/Machine/Step.lean ====
section
/-! DEFINITION. One step of the machine: fetch, decode, execute. It is the step of
spec/60_exceptions.md R184 under `UNINIT_READ = any_value`; the step under either value of that parameter
is `specStep` (Machine/Definedness.lean). -/

namespace Sys2Proof.Machine

/-- One step: stuck if the slot at `pc` holds no instruction (R41), else the decoded instruction runs. -/
def step (s : State) : Host.Outcome State Fault Refusal :=
  match s.fetch with
  | none => .fault (.stuckFetch s.pc)
  | some w => exec (Sys2Proof.decode w) s

/-- The state with an instruction word in the slot at `pc`, where `step` fetches next. It stands for
the host's load of a program (spec/70_reset_and_hazards.md R194, log entry 8). -/
def State.withFetchWord (s : State) (nbits w : Nat) : State :=
  { s with imem := Memory.write s.imem s.pc.toNat (BitVec.ofNat 16 (w % 2 ^ nbits)) }

end Sys2Proof.Machine
end

