-- ==== Sys2Proof/Machine/Assembly.lean ====
section
/-! DEFINITION. Assembly text (spec/30_encoding.md R70, R71), label arithmetic (R71) and the idioms of
R72. No step depends on this file. -/

namespace Sys2Proof.Machine

/-- The mnemonic of an instruction, as spec/opcode_table.json has it. -/
def mnemonicOf : Instr → String
  | .ld _ _ _ => "LD"
  | .st _ _ _ => "ST"
  | .add _ _ _ => "ADD"
  | .sub _ _ _ => "SUB"
  | .inv _ _ => "INV"
  | .lsl _ _ _ => "LSL"
  | .lsr _ _ _ => "LSR"
  | .and _ _ _ => "AND"
  | .or _ _ _ => "OR"
  | .slt _ _ _ => "SLT"
  | .illegal _ => "ILLEGAL"
  | .beq _ _ _ => "BEQ"
  | .bne _ _ _ => "BNE"
  | .jmp _ => "JMP"
  | .lui _ _ => "LUI"
  | .lli _ _ => "LLI"

/-- `r0` to `r7` (R71). -/
def regText (r : RegId) : String := "r" ++ toString r.toNat

/-- `offset6` as the signed number the field holds (R71). -/
def offsetText (o : BitVec 6) : String := toString o.toInt

/-- The text of an instruction, operands in the order of R70. An `illegal` word has no text of its own
in the source and shows its number. -/
def asmText (i : Instr) : String :=
  mnemonicOf i ++ " " ++
    match i with
    | .ld rd rs1 o => regText rd ++ ", " ++ offsetText o ++ "(" ++ regText rs1 ++ ")"
    | .st rs2 rs1 o => regText rs2 ++ ", " ++ offsetText o ++ "(" ++ regText rs1 ++ ")"
    | .add rd rs1 rs2 => regText rd ++ ", " ++ regText rs1 ++ ", " ++ regText rs2
    | .sub rd rs1 rs2 => regText rd ++ ", " ++ regText rs1 ++ ", " ++ regText rs2
    | .inv rd rs1 => regText rd ++ ", " ++ regText rs1
    | .lsl rd rs1 rs2 => regText rd ++ ", " ++ regText rs1 ++ ", " ++ regText rs2
    | .lsr rd rs1 rs2 => regText rd ++ ", " ++ regText rs1 ++ ", " ++ regText rs2
    | .and rd rs1 rs2 => regText rd ++ ", " ++ regText rs1 ++ ", " ++ regText rs2
    | .or rd rs1 rs2 => regText rd ++ ", " ++ regText rs1 ++ ", " ++ regText rs2
    | .slt rd rs1 rs2 => regText rd ++ ", " ++ regText rs1 ++ ", " ++ regText rs2
    | .illegal word => toString word.toNat
    | .beq rs1 rs2 o => regText rs1 ++ ", " ++ regText rs2 ++ ", " ++ offsetText o
    | .bne rs1 rs2 o => regText rs1 ++ ", " ++ regText rs2 ++ ", " ++ offsetText o
    | .jmp imm12 => toString imm12.toNat
    | .lui rd imm8 => regText rd ++ ", " ++ toString imm8.toNat
    | .lli rd imm8 => regText rd ++ ", " ++ toString imm8.toNat

/-- The `offset6` that `BEQ ra, rb, L` stands for at address `pc`: `(L - (pc + 4)) / 4` (R71). R71 names
no field for a label that is out of reach or no multiple of 4 away; here the quotient is rounded down and
kept modulo 2^6. DESIGN CHOICE, safe: log entry 16. -/
def branchOffsetTo (pc label : Word) : BitVec 6 := (label - (pc + 4)).extractLsb' 2 6

/-- The `offset12` that `JMP L` stands for: `L / 4` (R71). R71 names no field for a label that is no
multiple of 4 or not below 0x4000; here the quotient is rounded down and kept modulo 2^12. DESIGN CHOICE,
safe: log entry 16. -/
def jumpSlotOf (label : Word) : BitVec 12 := label.extractLsb' 2 12

/-- Load a 16-bit constant: LUI, then LLI (R72, R152). -/
def idiomLoadConst (rd : RegId) (k : Word) : List Instr :=
  [.lui rd (k.extractLsb' 8 8), .lli rd (k.extractLsb' 0 8)]

/-- Copy `rs` to `rd` by OR (R72). -/
def idiomCopy (rd rs : RegId) : Instr := .or rd rs rs

/-- Copy `rs` to `rd` by AND (R72). -/
def idiomCopyAnd (rd rs : RegId) : Instr := .and rd rs rs

/-- Clear `rd`, from any register that may be read (R72). -/
def idiomClear (rd rs : RegId) : Instr := .sub rd rs rs

/-- No operation (R72). -/
def idiomNop : Instr := .or 0 0 0

/-- Unconditional relative branch (R72). -/
def idiomBranch (offset6 : BitVec 6) : Instr := .beq 0 0 offset6

/-- Stop: a jump to the instruction's own slot (R72, spec/70_reset_and_hazards.md R192), where `pc` is a
slot below 0x4000; elsewhere no jump reaches its own slot and log entry 16 says which field this is. -/
def idiomStop (pc : Word) : Instr := .jmp (jumpSlotOf pc)

end Sys2Proof.Machine
end

