-- ==== Sys2Proof/Machine/Control.lean ====
section
/-! DEFINITION. The informative datapath tables (spec/45_control_signals.md): the control word of each
instruction class (R160) and the ALU operation of each opcode (R161, R162). They are internal to the
implementation and no meaning depends on them (R164); statements hold the meanings against them. -/

namespace Sys2Proof.Machine

/-- The control signals (R160). -/
structure ControlWord where
  regDst : BitVec 2
  aluSrc : BitVec 2
  memToReg : Bool
  regWrite : Bool
  memRead : Bool
  memWrite : Bool
  branch : Bool
  aluOp : BitVec 4
  jump : Bool
  deriving DecidableEq, Repr

/-- The ALU operations (R162). -/
inductive AluOperation where
  | add
  | sub
  | inv
  | lsl
  | lsr
  | and
  | or
  | slt
  | lui
  | lli
  deriving DecidableEq, Repr

/-- The 4-bit code of an ALU operation (R161). -/
def aluCode : AluOperation → BitVec 4
  | .add => 0
  | .sub => 1
  | .inv => 2
  | .lsl => 3
  | .lsr => 4
  | .and => 5
  | .or => 6
  | .slt => 7
  | .lui => 8
  | .lli => 9

/-- The ALU operation of an instruction's opcode; the row of opcode 10 is blank (R162). -/
def aluOperationOf : Instr → Option AluOperation
  | .ld _ _ _ => some .add
  | .st _ _ _ => some .add
  | .add _ _ _ => some .add
  | .sub _ _ _ => some .sub
  | .inv _ _ => some .inv
  | .lsl _ _ _ => some .lsl
  | .lsr _ _ _ => some .lsr
  | .and _ _ _ => some .and
  | .or _ _ _ => some .or
  | .slt _ _ _ => some .slt
  | .illegal _ => none
  | .beq _ _ _ => some .sub
  | .bne _ _ _ => some .sub
  | .jmp _ => some .add
  | .lui _ _ => some .lui
  | .lli _ _ => some .lli

/-- The row Data-processing, with the ALU operation of the opcode (R160, R161). -/
def dataControl (op : AluOperation) : ControlWord :=
  { regDst := 1, aluSrc := 0, memToReg := false, regWrite := true, memRead := false,
    memWrite := false, branch := false, aluOp := aluCode op, jump := false }

/-- The row "LUI, LLI", with the ALU operation of the opcode (R160, R161). -/
def immControl (op : AluOperation) : ControlWord :=
  { regDst := 1, aluSrc := 2, memToReg := false, regWrite := true, memRead := false,
    memWrite := false, branch := false, aluOp := aluCode op, jump := false }

/-- The row LW (R160). -/
def loadControl : ControlWord :=
  { regDst := 0, aluSrc := 1, memToReg := true, regWrite := true, memRead := true,
    memWrite := false, branch := false, aluOp := 0, jump := false }

/-- The row SW (R160). -/
def storeControl : ControlWord :=
  { regDst := 0, aluSrc := 1, memToReg := false, regWrite := false, memRead := false,
    memWrite := true, branch := false, aluOp := 0, jump := false }

/-- The row "BEQ,BNE" (R160). -/
def branchControl : ControlWord :=
  { regDst := 0, aluSrc := 0, memToReg := false, regWrite := false, memRead := false,
    memWrite := false, branch := true, aluOp := 1, jump := false }

/-- The row J (R160). -/
def jumpControl : ControlWord :=
  { regDst := 0, aluSrc := 0, memToReg := false, regWrite := false, memRead := false,
    memWrite := false, branch := false, aluOp := 0, jump := true }

/-- The control word of an instruction; opcode 10 has none (R160). -/
def controlOf : Instr → Option ControlWord
  | .ld _ _ _ => some loadControl
  | .st _ _ _ => some storeControl
  | .add _ _ _ => some (dataControl .add)
  | .sub _ _ _ => some (dataControl .sub)
  | .inv _ _ => some (dataControl .inv)
  | .lsl _ _ _ => some (dataControl .lsl)
  | .lsr _ _ _ => some (dataControl .lsr)
  | .and _ _ _ => some (dataControl .and)
  | .or _ _ _ => some (dataControl .or)
  | .slt _ _ _ => some (dataControl .slt)
  | .illegal _ => none
  | .beq _ _ _ => some branchControl
  | .bne _ _ _ => some branchControl
  | .jmp _ => some jumpControl
  | .lui _ _ => some (immControl .lui)
  | .lli _ _ => some (immControl .lli)

/-- The field of the word that names the register to be written, as Reg Dst chooses it (R163). For LUI
and LLI (ALUSrc 10) the format table overrides Reg Dst 01 (spec/90_conflicts.md C5). -/
def destField (c : ControlWord) (w : Word) : RegId :=
  if c.regDst = 0 then fieldB w else if c.aluSrc = 2 then fieldA w else fieldC w

/-- The second input of the ALU, as ALUSrc chooses it (R163): the register in `I[8:6]`, the sign-extended
offset6, or imm8. -/
def aluSecondInput (c : ControlWord) (s : State) (w : Word) : Word :=
  if c.aluSrc = 0 then (s.reg (fieldB w)).value
  else if c.aluSrc = 1 then (offset6Field w).signExtend 16
  else (imm8Field w).setWidth 16

/-- What the ALU computes from its two inputs. The first is the register in `I[11:9]`, so for LUI and LLI
the old `x[rd]`, and their second is the immediate (R150 corner case b). DEDUCED, safe: log entry 9. -/
def aluResult (p : Config.Params) (op : AluOperation) (a b : Word) : Word :=
  match op with
  | .add => addResult a b
  | .sub => subResult a b
  | .inv => invResult a
  | .lsl => lslResult p.shiftAmount a b
  | .lsr => lsrResult p.shiftAmount a b
  | .and => andResult a b
  | .or => orResult a b
  | .slt => sltResult p.sltSigned a b
  | .lui => b.extractLsb' 0 8 ++ a.extractLsb' 0 8
  | .lli => a.extractLsb' 8 8 ++ b.extractLsb' 0 8

end Sys2Proof.Machine
end

