-- ==== Sys2Proof/Machine/Definedness.lean ====
section
/-! DEFINITION. The spec's bookkeeping of what nothing has written (spec/10_state.md R35) and its step with
all outcomes under either value of `UNINIT_READ` (spec/60_exceptions.md R184). R35 makes no claim about the
hardware, whose storage always holds some bits: the machine's own `step` goes on with those bits, and
`specStep` reports `UninitRead` where the parameter says so (log entry 2). -/

namespace Sys2Proof.Machine

/-- `UninitRead(pc, what)` (R35, R172): the outcome that marks a run as one that used what nothing has
written. -/
inductive ReadFault where
  /-- `UninitRead(pc, reg i)`: an operand register has an undefined byte. -/
  | reg (pc : Word) (reg : RegId)
  /-- `UninitRead(pc, mem addr)`: LD from an undefined cell. -/
  | mem (pc addr : Word)
  deriving DecidableEq, Repr

/-- Why the spec's step has no next state: `UninitRead`, or a reason of the machine's own step. -/
inductive SpecFault where
  | uninitRead (e : ReadFault)
  | machine (f : Fault)
  deriving DecidableEq, Repr

/-- What the spec's step answers. -/
abbrev SpecResult := Host.Outcome State SpecFault Refusal

/-- An outcome of the machine as an outcome of the spec's step. -/
def toSpec : Result → SpecResult
  | .next t => .next t
  | .fault f => .fault (.machine f)
  | .refused r => .refused r

/-- The existing data cell that an LD reads and that may not be loaded, if there is one (R35). -/
def undefinedLoad (s : State) : Instr → Option Word
  | .ld _ rs1 offset6 =>
    if s.dataValid (effAddr (s.reg rs1).value offset6) &&
        !s.cellReadable (effAddr (s.reg rs1).value offset6)
    then some (effAddr (s.reg rs1).value offset6) else none
  | _ => none

/-- The `UninitRead` of an instruction, if it has one: its operand registers in order, then the cell an LD
reads (R35, R184). -/
def readFault (s : State) (i : Instr) : Option ReadFault :=
  match i.operands.find? (fun r => !s.readable r) with
  | some r => some (.reg s.pc r)
  | none => (undefinedLoad s i).map (.mem s.pc)

/-- The spec's step (R184): a slot without an instruction is stuck; else `UninitRead` where the parameter
`UNINIT_READ` asks for it; else the instruction runs. The word with opcode 10 has no operand, and an LD
outside `DMEM_VALID` loads no cell, so `IllegalOpcode` and `STUCK(data)` keep their place in the order. -/
def specStep (s : State) : SpecResult :=
  match s.fetch with
  | none => .fault (.machine (.stuckFetch s.pc))
  | some w =>
    match readFault s (decode w) with
    | some e => .fault (.uninitRead e)
    | none => toSpec (exec (decode w) s)

end Sys2Proof.Machine
end

