-- ==== Sys2Proof/Safety.lean ====
section
/-! DEFINITION. The terms in which claims speak of the machine: runs and their end, the invariant of
every state, what an instruction changes and leaves, and when two states look the same. -/

namespace Sys2Proof.Machine

/-! ### Runs -/

/-- `k` steps, stopping at the first that gives no next state. -/
def runSteps : Nat → State → Result
  | 0, s => .next s
  | k + 1, s =>
    match step s with
    | .next t => runSteps k t
    | .fault f => .fault f
    | .refused r => .refused r

/-- `k` steps of the spec's `specStep`, stopping at the first that gives no next state. -/
def runSpec : Nat → State → SpecResult
  | 0, s => .next s
  | k + 1, s =>
    match specStep s with
    | .next t => runSpec k t
    | .fault f => .fault f
    | .refused r => .refused r

/-- The run has ended (spec/70_reset_and_hazards.md R192): the slot at `pc` holds a JMP whose target is
that same address. -/
def State.Ended (s : State) : Prop :=
  ∃ w imm12, s.fetch = some w ∧ decode w = .jmp imm12 ∧ imm12.toNat * 4 = s.pc.toNat

/-- The fault says that the spec gives no step (`STUCK`, spec/60_exceptions.md R184), rather than that
the run has gone wrong (`FAULT`). -/
def Fault.isStuck : Fault → Bool
  | .illegalOpcode _ _ => false
  | .stuckFetch _ => true
  | .stuckData _ _ => true

/-! ### The invariant -/

/-- What every reachable state meets: the pc is a multiple of 4 (spec/10_state.md R26), and both stores
are in canonical form, the instruction store with slots only (spec/20_memory.md R40, R42). -/
def State.Inv (s : State) : Prop :=
  s.pc.toNat % 4 = 0 ∧ Memory.wf s.dmem ∧ Memory.slotsWf s.imem

/-! ### What an instruction changes -/

/-- Only register `rd` and the pc change: `rd` becomes `x`, the pc advances by 4 (modulo 2^16, as the
spec's decision D6 has it). -/
structure WritesOnly (s t : State) (rd : RegId) (x : Reg) : Prop where
  dest : t.reg rd = x
  others : ∀ r, r ≠ rd → t.reg r = s.reg r
  next : t.pc = s.pc + 4
  dmem : ∀ a, Memory.read t.dmem a = Memory.read s.dmem a
  imem : t.imem = s.imem
  params : t.params = s.params

/-- Only the pc changes: it becomes `p`. -/
structure MovesOnly (s t : State) (p : Word) : Prop where
  regs : ∀ r, t.reg r = s.reg r
  next : t.pc = p
  dmem : ∀ a, Memory.read t.dmem a = Memory.read s.dmem a
  imem : t.imem = s.imem
  params : t.params = s.params

/-- Only the data cell at `a` and the pc change: the cell holds `v` and is defined, the pc advances
by 4 (modulo 2^16, as the spec's decision D6 has it). -/
structure StoresOnly (s t : State) (a v : Word) : Prop where
  cell : Memory.read t.dmem a.toNat = some v
  others : ∀ b, b ≠ a.toNat → Memory.read t.dmem b = Memory.read s.dmem b
  regs : ∀ r, t.reg r = s.reg r
  next : t.pc = s.pc + 4
  imem : t.imem = s.imem
  params : t.params = s.params

/-- A register holding a value with both bytes defined. -/
def fullReg (v : Word) : Reg := { value := v, hiDefined := true, loDefined := true }

/-- The data address an instruction accesses, if it accesses one (spec/20_memory.md R42, R44). -/
def dataAddress (s : State) : Instr → Option Word
  | .ld _ rs1 offset6 => some (effAddr (s.reg rs1).value offset6)
  | .st _ rs1 offset6 => some (effAddr (s.reg rs1).value offset6)
  | .add _ _ _ => none
  | .sub _ _ _ => none
  | .inv _ _ => none
  | .lsl _ _ _ => none
  | .lsr _ _ _ => none
  | .and _ _ _ => none
  | .or _ _ _ => none
  | .slt _ _ _ => none
  | .illegal _ => none
  | .beq _ _ _ => none
  | .bne _ _ _ => none
  | .jmp _ => none
  | .lui _ _ => none
  | .lli _ _ => none

/-- The instruction is LD, the only one that reads data memory (R42). -/
def isLoad : Instr → Bool
  | .ld _ _ _ => true
  | _ => false

/-- The instruction is ST, the only one that writes data memory (R42). -/
def isStore : Instr → Bool
  | .st _ _ _ => true
  | _ => false

/-! ### Two states side by side -/

/-- Apply a function to the next state, if there is one. -/
def mapNext (f : State → State) : Result → Result
  | .next t => .next (f t)
  | .fault e => .fault e
  | .refused r => .refused r

/-- Both outcomes are next states related by `R`, or both are the same stop. -/
def SameOutcome (R : State → State → Prop) : SpecResult → SpecResult → Prop
  | .next t, .next u => R t u
  | .fault e, .fault f => e = f
  | .refused r, .refused q => r = q
  | _, _ => False

/-- The state with another value of `UNINIT_READ` (spec/10_state.md R35). -/
def State.withUninit (s : State) (p : Config.UninitRead) : State :=
  { s with params := { s.params with uninitRead := p } }

/-- The state with another value of `SHIFT_AMOUNT` (D11). -/
def State.withShift (s : State) (m : Config.ShiftAmount) : State :=
  { s with params := { s.params with shiftAmount := m } }

/-- The state with another value of `SLT_SIGNED` (D12). -/
def State.withSlt (s : State) (b : Bool) : State :=
  { s with params := { s.params with sltSigned := b } }

/-- The state with another data memory. -/
def State.withData (s : State) (m : Memory) : State := { s with dmem := m }

/-- Two registers with the same marks, and the same bits in every defined byte. -/
structure AgreesWhereDefined (x y : Reg) : Prop where
  hiMark : x.hiDefined = y.hiDefined
  loMark : x.loDefined = y.loDefined
  high : x.hiDefined = true → x.high = y.high
  low : x.loDefined = true → x.low = y.low

/-- Two states that differ at most in what undefined register bytes hold. -/
structure LooksSame (s t : State) : Prop where
  regs : ∀ r, AgreesWhereDefined (s.reg r) (t.reg r)
  pc : s.pc = t.pc
  dmem : s.dmem = t.dmem
  imem : s.imem = t.imem
  params : s.params = t.params

end Sys2Proof.Machine
end

