-- ==== Sys2Proof/Certificates/Slice0/Obligations.lean ====
section
/-! DEFINITION. The statements for the provers, from the numbered rules of spec/. -/

open Sys2Proof Sys2Proof.Machine

/-! ### Encoding -/

/-- Decoding undoes encoding, encoding is the formula of spec/30_encoding.md section 8, and encoding
undoes decoding exactly on canonical words. The spec derives the formulas of its 15 instructions from
its layout decision D1; it gives none for a word with opcode 10, and that an `illegal` term encodes to
the word it carries, on which both round trips of those 4,096 words rest, is the model's choice (log
entry 10). -/
def Obligations.EncodeFollowsFormulaAndInvertsDecode : Prop :=
  (∀ i : Instr, i.wellFormed = true → decode (encode i) = i) ∧
  (∀ w : Word, encode (decode w) = w ↔ isCanonical w = true) ∧
  (∀ rd rs1 o, (encode (.ld rd rs1 o)).toNat =
    0 * 4096 + rs1.toNat * 512 + rd.toNat * 64 + o.toNat) ∧
  (∀ rs2 rs1 o, (encode (.st rs2 rs1 o)).toNat =
    1 * 4096 + rs1.toNat * 512 + rs2.toNat * 64 + o.toNat) ∧
  (∀ c ∈ [((2 : Nat), Instr.add), (3, Instr.sub), (5, Instr.lsl), (6, Instr.lsr), (7, Instr.and),
      (8, Instr.or), (9, Instr.slt)], ∀ rd rs1 rs2, (encode (c.2 rd rs1 rs2)).toNat =
    c.1 * 4096 + rs1.toNat * 512 + rs2.toNat * 64 + rd.toNat * 8) ∧
  (∀ rd rs1, (encode (.inv rd rs1)).toNat = 4 * 4096 + rs1.toNat * 512 + rd.toNat * 8) ∧
  (∀ rs1 rs2 o, (encode (.beq rs1 rs2 o)).toNat =
    11 * 4096 + rs1.toNat * 512 + rs2.toNat * 64 + o.toNat) ∧
  (∀ rs1 rs2 o, (encode (.bne rs1 rs2 o)).toNat =
    12 * 4096 + rs1.toNat * 512 + rs2.toNat * 64 + o.toNat) ∧
  (∀ imm, (encode (.jmp imm)).toNat = 13 * 4096 + imm.toNat) ∧
  (∀ rd b, (encode (.lui rd b)).toNat = 14 * 4096 + rd.toNat * 512 + b.toNat) ∧
  (∀ rd b, (encode (.lli rd b)).toNat = 15 * 4096 + rd.toNat * 512 + b.toNat)

/-- What the decoder reads, opcode by opcode, the fields taken from the word's number. The field
positions are the spec's layout decision D1. -/
def Obligations.DecodeReadsFieldsByOpcode : Prop :=
  ∀ w : Word, ∀ a b c : RegId, ∀ o6 : BitVec 6, ∀ i8 : Byte, ∀ i12 : BitVec 12,
    a.toNat = w.toNat / 512 % 8 → b.toNat = w.toNat / 64 % 8 → c.toNat = w.toNat / 8 % 8 →
    o6.toNat = w.toNat % 64 → i8.toNat = w.toNat % 256 → i12.toNat = w.toNat % 4096 →
    (w.toNat / 4096 = 0 → decode w = .ld b a o6) ∧
    (w.toNat / 4096 = 1 → decode w = .st b a o6) ∧
    (w.toNat / 4096 = 2 → decode w = .add c a b) ∧
    (w.toNat / 4096 = 3 → decode w = .sub c a b) ∧
    (w.toNat / 4096 = 4 → decode w = .inv c a) ∧
    (w.toNat / 4096 = 5 → decode w = .lsl c a b) ∧
    (w.toNat / 4096 = 6 → decode w = .lsr c a b) ∧
    (w.toNat / 4096 = 7 → decode w = .and c a b) ∧
    (w.toNat / 4096 = 8 → decode w = .or c a b) ∧
    (w.toNat / 4096 = 9 → decode w = .slt c a b) ∧
    (w.toNat / 4096 = 10 → decode w = .illegal w) ∧
    (w.toNat / 4096 = 11 → decode w = .beq a b o6) ∧
    (w.toNat / 4096 = 12 → decode w = .bne a b o6) ∧
    (w.toNat / 4096 = 13 → decode w = .jmp i12) ∧
    (w.toNat / 4096 = 14 → decode w = .lui a i8) ∧
    (w.toNat / 4096 = 15 → decode w = .lli a i8)

/-- Bits 2:0 of data processing, bits 8:6 of INV and bit 8 of LUI and LLI play no part in
decoding, and the encoder writes zeros in them. That they are ignored is the spec's decision D10. -/
def Obligations.IgnoredBitsChangeNothing : Prop :=
  (∀ w x : Word, 2 ≤ (opField w).toNat → (opField w).toNat ≤ 9 → x &&& 0x0007 = x →
    decode (w ^^^ x) = decode w) ∧
  (∀ w x : Word, opField w = 4 → x &&& 0x01C7 = x → decode (w ^^^ x) = decode w) ∧
  (∀ w x : Word, (opField w = 14 ∨ opField w = 15) → x &&& 0x0100 = x →
    decode (w ^^^ x) = decode w) ∧
  (∀ i : Instr, i.wellFormed = true → isCanonical (encode i) = true)

/-- The decoder answers well-formed terms only, and keeps the opcode of the word. Well-formedness is the
model's notion: it is true of the 15 instructions, and of an `illegal` term when the word it carries has
opcode 10 (log entry 10). Such a word is no instruction of the machine (spec/30_encoding.md section 7,
decision D9). -/
def Obligations.DecodedWordsAreWellFormed : Prop :=
  ∀ w : Word, (decode w).wellFormed = true ∧ (decode w).opcode = opField w

/-- The opcode alone selects the instruction, by the map of spec/30_encoding.md section 5. That the
opcode is the top four bits of the word is the spec's layout decision D1 (log entry 7); that opcode 10,
to which the map gives no instruction, is `ILLEGAL` is its decision D9. -/
def Obligations.OpcodeAloneSelectsInstruction : Prop :=
  ∀ w : Word, some (mnemonicOf (decode w)) =
    ["LD", "ST", "ADD", "SUB", "INV", "LSL", "LSR", "AND", "OR", "SLT", "ILLEGAL", "BEQ", "BNE",
      "JMP", "LUI", "LLI"][w.toNat / 4096]?

/-- A word is no instruction exactly when its opcode is 10 (the spec derives it; log entry 10 for the
word the term carries). -/
def Obligations.IllegalExactlyAtOpcodeTen : Prop :=
  ∀ w x : Word, decode w = .illegal x ↔ (w.toNat / 4096 = 10 ∧ x = w)

/-- Words of spec/95_test_vectors.md section 2, derived by the spec from its layout decision D1, decode
to the instructions listed there. -/
def Obligations.ListedWordsDecode : Prop :=
  decode 0x0283 = .ld 2 1 3 ∧ decode 0x12BF = .st 2 1 63 ∧ decode 0x229F = .add 3 1 2 ∧
  decode 0x43DF = .inv 3 1 ∧ decode 0xB2BD = .beq 1 2 61 ∧ decode 0xC83E = .bne 4 0 62 ∧
  decode 0xDFFF = .jmp 4095 ∧ decode 0xE312 = .lui 1 0x12 ∧ decode 0xF234 = .lli 1 0x34 ∧
  decode 0xA000 = .illegal 0xA000

/-! ### Reset, loading and the invariant -/

/-- The state a run starts from, with the host's program and data image placed: the spec's decisions
D7 and D22. That `loadProgram` and `loadData` stand for the host's load is the model's (log entry 8). The
marks are those of the parameters' defaults, `UNINIT_READ = fault` among them. -/
def Obligations.LoadedResetStateIsAsSpecified : Prop :=
  ∀ (program : List Word) (image : List (Word × Word)), program.length ≤ 16384 →
    let s := (State.reset.loadProgram program).loadData image
    s.pc = 0x0000 ∧ s.params = Config.specDefaults ∧
    (∀ r, (s.reg r).hiDefined = false ∧ (s.reg r).loDefined = false) ∧
    (∀ a : Word, Memory.read s.dmem a.toNat =
      (image.reverse.find? (fun c => c.1 == a)).map (·.2)) ∧
    (∀ k, k < program.length → Memory.read s.imem (4 * k) = program[k]?) ∧
    (∀ a, (a % 4 ≠ 0 ∨ 4 * program.length ≤ a) → Memory.read s.imem a = none) ∧
    s.fetch = program.head?

/-- The state after reset meets the invariant; its canonical stores are the model's (log entry 5). -/
def Obligations.ResetMeetsInvariant : Prop := State.reset.Inv

/-- Every step from any state that meets the invariant gives a state that meets it; the canonical form
of the stores is the model's (log entry 5). -/
def Obligations.StepKeepsInvariant : Prop :=
  ∀ s t : State, s.Inv → step s = .next t → t.Inv

/-- As the spec derives in spec/10_state.md section 3, the pc is a multiple of 4 after reset, and every instruction keeps it one. -/
def Obligations.PcStaysMultipleOfFour : Prop :=
  State.reset.pc.toNat % 4 = 0 ∧
  ∀ (i : Instr) (s t : State), s.pc.toNat % 4 = 0 → exec i s = .next t → t.pc.toNat % 4 = 0

/-- No instruction, a store included, changes what instruction fetch sees (the spec's decision D3); nor
does one change the parameters (log entry 3). -/
def Obligations.ProgramAndParametersNeverChange : Prop :=
  ∀ (i : Instr) (s t : State), exec i s = .next t →
    t.params = s.params ∧ t.imem = s.imem ∧
    ∀ p : Word, (t.jumpTo p).fetch = (s.jumpTo p).fetch

/-! ### The step -/

/-- When the slot at the pc holds a word, the step is the decoded instruction's: the spec's decision of
what a step is (spec/60_exceptions.md section 1). -/
def Obligations.StepRunsDecodedInstruction : Prop :=
  ∀ (s : State) (w : Word), s.fetch = some w → step s = exec (decode w) s

/-- A word placed by `withFetchWord`, the model's stand-in for the host's load (log entry 8), is what
the next step runs. -/
def Obligations.PlacedWordRunsNext : Prop :=
  ∀ (s : State) (w : Word),
    step (s.withFetchWord 16 w.toNat) = exec (decode w) (s.withFetchWord 16 w.toNat)

/-- The outcomes of a step, in the order spec/60_exceptions.md section 1 tries them: the spec's
decisions D7, D9 and D17. That its outcomes STUCK are named faults is the model's choice (log entry 6), and
so is that the machine's own `step` goes on where the outcome is `UninitRead` (log entry 2). -/
def Obligations.StepOutcomesInOrder : Prop :=
  ∀ s : State,
    match s.fetch with
    | none => specStep s = .fault (.machine (.stuckFetch s.pc)) ∧ step s = .fault (.stuckFetch s.pc)
    | some w =>
      if opField w = 10 then
        specStep s = .fault (.machine (.illegalOpcode s.pc w)) ∧
          step s = .fault (.illegalOpcode s.pc w)
      else
        match (decode w).operands.find? (fun r => !s.readable r) with
        | some r => specStep s = .fault (.uninitRead (.reg s.pc r))
        | none =>
          match dataAddress s (decode w) with
          | none => ∃ t, specStep s = .next t ∧ step s = .next t ∧ exec (decode w) s = .next t
          | some a =>
            if s.dataValid a = false then
              specStep s = .fault (.machine (.stuckData s.pc a)) ∧
                step s = .fault (.stuckData s.pc a)
            else if isLoad (decode w) = true ∧ Memory.read s.dmem a.toNat = none ∧
                s.params.uninitRead = .fault then
              specStep s = .fault (.uninitRead (.mem s.pc a))
            else ∃ t, specStep s = .next t ∧ step s = .next t ∧ exec (decode w) s = .next t

/-- No step is refused: every instruction has its meaning, as the spec's three outcomes ask (decision
D16; log entry 6). -/
def Obligations.NoStepIsRefused : Prop :=
  ∀ (s : State) (r : Refusal), step s ≠ .refused r

/-- By the spec's decision D9 a word with opcode 10 is the model fault `IllegalOpcode(pc, I)` and nothing else happens. -/
def Obligations.OpcodeTenIsIllegalOpcode : Prop :=
  (∀ (s : State) (w : Word), exec (.illegal w) s = .fault (.illegalOpcode s.pc w)) ∧
  (∀ (s : State) (w : Word), s.fetch = some w → opField w = 10 →
    step s = .fault (.illegalOpcode s.pc w))

/-- The first operand, `rs1` before `rs2`, that may not be read is the one the spec's step reports: the
spec's decision D7 and the order of checks of spec/10_state.md section 9. -/
def Obligations.FirstUnreadableOperandIsReported : Prop :=
  ∀ (s : State) (w : Word) (r : RegId), s.fetch = some w →
    (decode w).operands.find? (fun q => !s.readable q) = some r →
    specStep s = .fault (.uninitRead (.reg s.pc r))

/-- Under `UNINIT_READ = any_value` (the spec's decision D7) the spec's step is the machine's own step, so
it is never `UninitRead`; and the machine's own step stops for its three named reasons only. -/
def Obligations.AnyValueNeverFaultsOnReads : Prop :=
  (∀ s : State, s.params.uninitRead = .anyValue → specStep s = toSpec (step s)) ∧
  (∀ (s : State) (f : Fault), step s = .fault f →
    f = .stuckFetch s.pc ∨ (∃ w, f = .illegalOpcode s.pc w) ∨
      ∃ a, f = .stuckData s.pc a ∧ s.dataValid a = false)

/-- What nothing has written never stops the machine (log entry 2: the machine runs as the spec's decision
D7 has it under `any_value`): no meaning depends on `UNINIT_READ`, each of the 15 instructions completes
whatever its operand registers hold and whatever their marks, but for a data address that does not exist,
and a run of the spec's step under `any_value` is the machine's run. -/
def Obligations.UnwrittenReadNeverStopsTheMachine : Prop :=
  (∀ (i : Instr) (s : State) (p : Config.UninitRead),
    exec i (s.withUninit p) = mapNext (·.withUninit p) (exec i s)) ∧
  (∀ (i : Instr) (s : State), (∀ w, i ≠ .illegal w) →
    (∀ a, dataAddress s i = some a → s.dataValid a = true) → ∃ t, exec i s = .next t) ∧
  (∀ (k : Nat) (s : State), s.params.uninitRead = .anyValue →
    runSpec k s = toSpec (runSteps k s))

/-- Nothing ever makes a register byte or a data cell undefined again (spec/10_state.md section 9, the
spec's decision D7). -/
def Obligations.DefinedStaysDefined : Prop :=
  ∀ (s t : State), step s = .next t →
    (∀ r, (s.reg r).hiDefined = true → (t.reg r).hiDefined = true) ∧
    (∀ r, (s.reg r).loDefined = true → (t.reg r).loDefined = true) ∧
    (∀ a, Memory.read s.dmem a ≠ none → Memory.read t.dmem a ≠ none)

/-- A run that does not fault under `UNINIT_READ = fault` is the same run under `any_value`
(spec/10_state.md section 9, the spec's decision D7), and the same run of the machine's own step. -/
def Obligations.FaultPolicyRunsAgreeWithAnyValue : Prop :=
  ∀ (k : Nat) (s t : State), s.params.uninitRead = .fault → runSpec k s = .next t →
    runSpec k (s.withUninit .anyValue) = .next (t.withUninit .anyValue) ∧ runSteps k s = .next t

/-- Under `UNINIT_READ = fault` what an undefined register byte holds cannot be learned from a run of the
spec's step: two states that differ only there run to the same outcome, and to states that differ only
there. -/
def Obligations.UndefinedBytesCannotBeLearned : Prop :=
  ∀ (k : Nat) (s t : State), s.params.uninitRead = .fault → LooksSame s t →
    SameOutcome LooksSame (runSpec k s) (runSpec k t)

/-! ### LD and ST

Here and below the hypotheses `readable` are the spec's own condition for an instruction to run (R35). The
machine runs without them too, to the outcome it has under `UNINIT_READ = any_value`, where every register
is readable: `UnwrittenReadNeverStopsTheMachine`. -/

/-- The effective address is the base plus the signed, unscaled offset, modulo 2^16 (the spec derives
the wrap-around from the 16-bit ALU, spec/20_memory.md section 2). -/
def Obligations.EffectiveAddressIsSignedSum : Prop :=
  ∀ (base : Word) (o : BitVec 6),
    ((effAddr base o).toNat : Int) = ((base.toNat : Int) + o.toInt) % 65536

/-- R100: LD loads the defined cell at the effective address into `rd`; nothing else changes but the
pc. -/
def Obligations.LdLoadsDefinedCell : Prop :=
  ∀ (s : State) (rd rs1 : RegId) (o : BitVec 6) (v : Word), s.readable rs1 = true →
    s.dataValid (effAddr (s.reg rs1).value o) = true →
    Memory.read s.dmem (effAddr (s.reg rs1).value o).toNat = some v →
    ∃ t, exec (.ld rd rs1 o) s = .next t ∧ WritesOnly s t rd (fullReg v)

/-- LD of a cell nothing has written: the free value of its address (log entry 4); the spec's step is the
model fault `UninitRead` under `fault` (the spec's decision D7). -/
def Obligations.LdOfUnwrittenCell : Prop :=
  (∀ (s : State) (rd rs1 : RegId) (o : BitVec 6),
    s.dataValid (effAddr (s.reg rs1).value o) = true →
    Memory.read s.dmem (effAddr (s.reg rs1).value o).toNat = none →
    ∃ t, exec (.ld rd rs1 o) s = .next t ∧
      WritesOnly s t rd (fullReg (Config.unwrittenCell (effAddr (s.reg rs1).value o)))) ∧
  (∀ (s : State) (w : Word) (rd rs1 : RegId) (o : BitVec 6), s.fetch = some w →
    decode w = .ld rd rs1 o → s.params.uninitRead = .fault → (s.reg rs1).defined = true →
    s.dataValid (effAddr (s.reg rs1).value o) = true →
    Memory.read s.dmem (effAddr (s.reg rs1).value o).toNat = none →
    specStep s = .fault (.uninitRead (.mem s.pc (effAddr (s.reg rs1).value o))))

/-- R101: ST stores `x[rs2]` in the cell at the effective address and defines it; no register and no
other cell changes. -/
def Obligations.StStoresCell : Prop :=
  ∀ (s : State) (rs2 rs1 : RegId) (o : BitVec 6), s.readable rs1 = true → s.readable rs2 = true →
    s.dataValid (effAddr (s.reg rs1).value o) = true →
    ∃ t, exec (.st rs2 rs1 o) s = .next t ∧
      StoresOnly s t (effAddr (s.reg rs1).value o) (s.reg rs2).value

/-- LD and ST at an address outside `DMEM_VALID` have no step (the spec's decision D17). That this
outcome STUCK is a named fault is the model's choice (log entry 6). -/
def Obligations.AbsentDataAddressIsStuck : Prop :=
  ∀ (s : State) (r rs1 : RegId) (o : BitVec 6), s.readable rs1 = true →
    s.dataValid (effAddr (s.reg rs1).value o) = false →
    exec (.ld r rs1 o) s = .fault (.stuckData s.pc (effAddr (s.reg rs1).value o)) ∧
    (s.readable r = true →
      exec (.st r rs1 o) s = .fault (.stuckData s.pc (effAddr (s.reg rs1).value o)))

/-- A load returns the value of the store just before it to the same address (the spec's decision
D16). -/
def Obligations.LoadReturnsStoredValue : Prop :=
  ∀ (s t : State) (rd rs2 rs1 rb : RegId) (o p : BitVec 6), exec (.st rs2 rs1 o) s = .next t →
    s.readable rb = true → effAddr (s.reg rb).value p = effAddr (s.reg rs1).value o →
    ∃ u, exec (.ld rd rb p) t = .next u ∧ u.reg rd = fullReg (s.reg rs2).value

/-- As the spec derives in spec/20_memory.md section 5, from a base an LD or ST reaches exactly the 64 addresses from 32 below to 31 above. -/
def Obligations.OffsetReachesSixtyFourAddresses : Prop :=
  ∀ base a : Word, (∃ o, effAddr base o = a) ↔ (a - base + 32).toNat < 64

/-! ### Data processing -/

/-- ADD writes the sum modulo 2^16 (spec/41_data_processing.md, ADD); that it wraps is the spec's
decision D19. -/
def Obligations.AddWritesSum : Prop :=
  ∀ (s : State) (rd rs1 rs2 : RegId), s.readable rs1 = true → s.readable rs2 = true →
    ∃ t v, exec (.add rd rs1 rs2) s = .next t ∧ WritesOnly s t rd (fullReg v) ∧
      v.toNat = ((s.reg rs1).value.toNat + (s.reg rs2).value.toNat) % 65536

/-- SUB writes `x[rs1] - x[rs2]` modulo 2^16 (spec/41_data_processing.md, SUB); that it wraps is the
spec's decision D19. -/
def Obligations.SubWritesDifference : Prop :=
  ∀ (s : State) (rd rs1 rs2 : RegId), s.readable rs1 = true → s.readable rs2 = true →
    ∃ t v, exec (.sub rd rs1 rs2) s = .next t ∧ WritesOnly s t rd (fullReg v) ∧
      (v.toNat : Int) =
        (((s.reg rs1).value.toNat : Int) - ((s.reg rs2).value.toNat : Int)) % 65536 ∧
      v = (s.reg rs1).value + ~~~(s.reg rs2).value + 1

/-- R113: INV complements each of the 16 bits. -/
def Obligations.InvWritesComplement : Prop :=
  ∀ (s : State) (rd rs1 : RegId), s.readable rs1 = true →
    ∃ t v, exec (.inv rd rs1) s = .next t ∧ WritesOnly s t rd (fullReg v) ∧
      (∀ n, n < 16 → v.getLsbD n = !(s.reg rs1).value.getLsbD n) ∧
      v.toNat = 65535 - (s.reg rs1).value.toNat

/-- LSL under the spec's default `SHIFT_AMOUNT`, its decision D11 (spec/41_data_processing.md, LSL). -/
def Obligations.LslShiftsLeft : Prop :=
  ∀ (s : State) (rd rs1 rs2 : RegId), s.readable rs1 = true → s.readable rs2 = true →
    s.params.shiftAmount = .wholeRegister →
    ∃ t v, exec (.lsl rd rs1 rs2) s = .next t ∧ WritesOnly s t rd (fullReg v) ∧
      v.toNat = if 16 ≤ (s.reg rs2).value.toNat then 0
        else (s.reg rs1).value.toNat * 2 ^ (s.reg rs2).value.toNat % 65536

/-- LSR under the spec's default `SHIFT_AMOUNT`, its decision D11 (spec/41_data_processing.md, LSR). -/
def Obligations.LsrShiftsRight : Prop :=
  ∀ (s : State) (rd rs1 rs2 : RegId), s.readable rs1 = true → s.readable rs2 = true →
    s.params.shiftAmount = .wholeRegister →
    ∃ t v, exec (.lsr rd rs1 rs2) s = .next t ∧ WritesOnly s t rd (fullReg v) ∧
      v.toNat = if 16 ≤ (s.reg rs2).value.toNat then 0
        else (s.reg rs1).value.toNat / 2 ^ (s.reg rs2).value.toNat

/-- LSL and LSR under the alternative the spec's decision D11 names: only the low 4 bits of the
register count. -/
def Obligations.LowFourBitShifts : Prop :=
  ∀ (s : State) (rd rs1 rs2 : RegId), s.readable rs1 = true → s.readable rs2 = true →
    s.params.shiftAmount = .lowFourBits →
    ∃ t u v w, exec (.lsl rd rs1 rs2) s = .next t ∧ WritesOnly s t rd (fullReg v) ∧
      exec (.lsr rd rs1 rs2) s = .next u ∧ WritesOnly s u rd (fullReg w) ∧
      v.toNat = (s.reg rs1).value.toNat * 2 ^ ((s.reg rs2).value.toNat % 16) % 65536 ∧
      w.toNat = (s.reg rs1).value.toNat / 2 ^ ((s.reg rs2).value.toNat % 16)

/-- For a count below 16 the outcome of LSL and LSR does not depend on `SHIFT_AMOUNT` (the spec's
decision D11). -/
def Obligations.SmallShiftsIgnoreShiftAmount : Prop :=
  ∀ (s : State) (rd rs1 rs2 : RegId) (m : Config.ShiftAmount), (s.reg rs2).value.toNat < 16 →
    exec (.lsl rd rs1 rs2) (s.withShift m) =
      mapNext (·.withShift m) (exec (.lsl rd rs1 rs2) s) ∧
    exec (.lsr rd rs1 rs2) (s.withShift m) =
      mapNext (·.withShift m) (exec (.lsr rd rs1 rs2) s)

/-- R117: bit i of the result is 1 exactly when bit i of both sources is. -/
def Obligations.AndWritesBitwiseAnd : Prop :=
  ∀ (s : State) (rd rs1 rs2 : RegId), s.readable rs1 = true → s.readable rs2 = true →
    ∃ t v, exec (.and rd rs1 rs2) s = .next t ∧ WritesOnly s t rd (fullReg v) ∧
      ∀ n, n < 16 → (v.getLsbD n = true ↔
        (s.reg rs1).value.getLsbD n = true ∧ (s.reg rs2).value.getLsbD n = true)

/-- R118: bit i of the result is 1 exactly when bit i of at least one source is. -/
def Obligations.OrWritesBitwiseOr : Prop :=
  ∀ (s : State) (rd rs1 rs2 : RegId), s.readable rs1 = true → s.readable rs2 = true →
    ∃ t v, exec (.or rd rs1 rs2) s = .next t ∧ WritesOnly s t rd (fullReg v) ∧
      ∀ n, n < 16 → (v.getLsbD n = true ↔
        (s.reg rs1).value.getLsbD n = true ∨ (s.reg rs2).value.getLsbD n = true)

/-- R119: 1 or 0 by the comparison of the two numbers, signed or unsigned as `SLT_SIGNED` says. -/
def Obligations.SltWritesComparison : Prop :=
  ∀ (s : State) (rd rs1 rs2 : RegId), s.readable rs1 = true → s.readable rs2 = true →
    ∃ t, exec (.slt rd rs1 rs2) s = .next t ∧
      WritesOnly s t rd (fullReg
        (if (if s.params.sltSigned = true
            then (s.reg rs1).value.toInt < (s.reg rs2).value.toInt
            else (s.reg rs1).value.toNat < (s.reg rs2).value.toNat)
          then 0x0001 else 0x0000))

/-- With equal top bits the outcome of SLT does not depend on `SLT_SIGNED` (the spec's decision D12). -/
def Obligations.SameSignSltIgnoresSltSigned : Prop :=
  ∀ (s : State) (rd rs1 rs2 : RegId) (b : Bool),
    (s.reg rs1).value.msb = (s.reg rs2).value.msb →
    exec (.slt rd rs1 rs2) (s.withSlt b) = mapNext (·.withSlt b) (exec (.slt rd rs1 rs2) s)

/-! ### Control transfer -/

/-- BEQ goes to `pc + 4 + offset6 * 4` if the registers are equal, else to `pc + 4`; nothing else
changes (spec/42_branch.md, BEQ). The wrap modulo 65,536 in both cases is the spec's decision D6 (log
entry 7), and the not-taken case its reading of the source (Common to both). -/
def Obligations.BeqBranchesOnEqual : Prop :=
  ∀ (s : State) (rs1 rs2 : RegId) (o : BitVec 6), s.readable rs1 = true → s.readable rs2 = true →
    ∃ t p, exec (.beq rs1 rs2 o) s = .next t ∧ MovesOnly s t p ∧
      (p.toNat : Int) =
        if (s.reg rs1).value = (s.reg rs2).value
        then ((s.pc.toNat : Int) + 4 + o.toInt * 4) % 65536
        else ((s.pc.toNat : Int) + 4) % 65536

/-- BNE goes to `pc + 4 + offset6 * 4` if the registers differ, else to `pc + 4`; nothing else changes
(spec/42_branch.md, BNE). The wrap modulo 65,536 in both cases is the spec's decision D6 (log entry 7),
and the not-taken case its reading of the source (Common to both). -/
def Obligations.BneBranchesOnDifferent : Prop :=
  ∀ (s : State) (rs1 rs2 : RegId) (o : BitVec 6), s.readable rs1 = true → s.readable rs2 = true →
    ∃ t p, exec (.bne rs1 rs2 o) s = .next t ∧ MovesOnly s t p ∧
      (p.toNat : Int) =
        if (s.reg rs1).value ≠ (s.reg rs2).value
        then ((s.pc.toNat : Int) + 4 + o.toInt * 4) % 65536
        else ((s.pc.toNat : Int) + 4) % 65536

/-- For the same operands and offset exactly one of BEQ and BNE is taken (spec/42_branch.md, BNE,
corner case c). -/
def Obligations.ExactlyOneOfBeqBneIsTaken : Prop :=
  ∀ (s : State) (rs1 rs2 : RegId) (o : BitVec 6), s.readable rs1 = true → s.readable rs2 = true →
    ∃ t u, exec (.beq rs1 rs2 o) s = .next t ∧ exec (.bne rs1 rs2 o) s = .next u ∧
      (t = s.jumpTo (branchTarget s.pc o) ∧ u = s.advance ∨
        t = s.advance ∧ u = s.jumpTo (branchTarget s.pc o))

/-- JMP goes to four times its field, whatever the old pc; nothing else changes. That the field is
unsigned is the spec's decision D13. -/
def Obligations.JmpGoesToSlot : Prop :=
  ∀ (s : State) (imm : BitVec 12),
    ∃ t p, exec (.jmp imm) s = .next t ∧ MovesOnly s t p ∧ p.toNat = imm.toNat * 4

/-- The next pc of every instruction, as the spec derives it in spec/43_jump.md (the wrap-around is its
decision D6). -/
def Obligations.NextPcFollowsSummary : Prop :=
  ∀ (i : Instr) (s t : State), exec i s = .next t →
    t.pc =
      match i with
      | .beq rs1 rs2 o => if (s.reg rs1).value = (s.reg rs2).value
          then s.pc + 4 + o.signExtend 16 * 4 else s.pc + 4
      | .bne rs1 rs2 o => if (s.reg rs1).value = (s.reg rs2).value
          then s.pc + 4 else s.pc + 4 + o.signExtend 16 * 4
      | .jmp imm => imm.setWidth 16 * 4
      | _ => s.pc + 4

/-- The addresses a branch and a jump reach, as the spec derives them in spec/43_jump.md. -/
def Obligations.BranchAndJumpReach : Prop :=
  (∀ pc p : Word, (∃ o, branchTarget pc o = p) ↔
    (p - pc + 124).toNat ≤ 252 ∧ (p - pc).toNat % 4 = 0) ∧
  (∀ p : Word, (∃ imm, jumpTarget imm = p) ↔ p.toNat < 0x4000 ∧ p.toNat % 4 = 0)

/-- By the spec's decision D18 the field an assembler computes for a label takes the branch or jump to
that label, when the label is a multiple of 4 away and within reach; of other labels it says nothing (log
entry 16). -/
def Obligations.LabelsReachTheirAddress : Prop :=
  (∀ pc l : Word, (l - pc + 124).toNat ≤ 252 → (l - pc).toNat % 4 = 0 →
    branchTarget pc (branchOffsetTo pc l) = l) ∧
  (∀ l : Word, l.toNat < 0x4000 → l.toNat % 4 = 0 → jumpTarget (jumpSlotOf l) = l)

/-- Once a run has ended (the spec's decision D15), executing on changes nothing, and it ends below
0x4000 only. -/
def Obligations.EndedRunStaysAsItIs : Prop :=
  ∀ s : State, s.Ended → s.pc.toNat < 0x4000 ∧ ∀ k, runSteps k s = .next s

/-! ### LUI and LLI -/

/-- R150: LUI replaces the high byte and keeps the low byte, value and mark; it never faults. -/
def Obligations.LuiReplacesHighByte : Prop :=
  ∀ (s : State) (rd : RegId) (b : Byte),
    ∃ t x, exec (.lui rd b) s = .next t ∧ WritesOnly s t rd x ∧
      x.value.toNat = b.toNat * 256 + (s.reg rd).value.toNat % 256 ∧
      x.hiDefined = true ∧ x.loDefined = (s.reg rd).loDefined

/-- R151: LLI replaces the low byte and keeps the high byte, value and mark; it never faults. -/
def Obligations.LliReplacesLowByte : Prop :=
  ∀ (s : State) (rd : RegId) (b : Byte),
    ∃ t x, exec (.lli rd b) s = .next t ∧ WritesOnly s t rd x ∧
      x.value.toNat = (s.reg rd).value.toNat / 256 * 256 + b.toNat ∧
      x.loDefined = true ∧ x.hiDefined = (s.reg rd).hiDefined

/-- LUI and LLI on one register, in either order, leave it `{h, l}` with both bytes defined, whatever it
held, as the spec derives in spec/44_load_immediate.md. -/
def Obligations.LuiLliPairLoadsConstant : Prop :=
  ∀ (s : State) (rd : RegId) (h l : Byte),
    ∃ t u v w, exec (.lui rd h) s = .next t ∧ exec (.lli rd l) t = .next u ∧
      exec (.lli rd l) s = .next v ∧ exec (.lui rd h) v = .next w ∧ w = u ∧
      u.reg rd = fullReg (h ++ l) ∧ (∀ r, r ≠ rd → u.reg r = s.reg r) ∧
      u.pc = s.pc + 4 + 4 ∧ u.dmem = s.dmem

/-! ### Rules about every instruction -/

/-- An instruction writes no register but the one the table of spec/10_state.md section 2 names for it,
and ST, BEQ, BNE and JMP write none (derived by the spec from the actions). -/
def Obligations.OnlyTheNamedRegisterIsWritten : Prop :=
  ∀ (i : Instr) (s t : State), exec i s = .next t →
    ∀ r, i.dest ≠ some r → t.reg r = s.reg r

/-- What an instruction does depends on the registers it reads, and on no other (the table of
spec/10_state.md section 2, derived by the spec): two states that agree on them, and on all but
registers, have the same next pc, the same data memory and the same
written value (of LUI and LLI, the written byte). -/
def Obligations.OnlyOperandsMatter : Prop :=
  ∀ (i : Instr) (s s' t : State), s.pc = s'.pc → s.dmem = s'.dmem → s.params = s'.params →
    (∀ r ∈ i.operands, s.reg r = s'.reg r) → exec i s = .next t →
    ∃ t', exec i s' = .next t' ∧ t'.pc = t.pc ∧ t'.dmem = t.dmem ∧
      ∀ rd, i.dest = some rd →
        match i with
        | .lui _ _ => (t'.reg rd).high = (t.reg rd).high
        | .lli _ _ => (t'.reg rd).low = (t.reg rd).low
        | _ => t'.reg rd = t.reg rd

/-- Data memory is written by ST only, at its effective address only (spec/20_memory.md section 1; the
word addressing is the spec's decision D4). -/
def Obligations.OnlyStoresChangeData : Prop :=
  ∀ (i : Instr) (s t : State), exec i s = .next t → ∀ b,
    (isStore i = true → ∀ a, dataAddress s i = some a → b ≠ a.toNat →
      Memory.read t.dmem b = Memory.read s.dmem b) ∧
    (isStore i = false → Memory.read t.dmem b = Memory.read s.dmem b)

/-- Data memory is read by LD only (spec/20_memory.md section 1): whatever data memory an instruction
that is neither LD nor ST finds, it has the same outcome and leaves that memory; and whatever data memory
ST finds, it has the same outcome and leaves that memory with the one cell written. The word addressing
is the spec's decision D4. -/
def Obligations.OnlyLoadsReadData : Prop :=
  (∀ (i : Instr) (s : State) (m : Memory), isLoad i = false → isStore i = false →
    exec i (s.withData m) = mapNext (·.withData m) (exec i s)) ∧
  (∀ (s : State) (m : Memory) (rs2 rs1 : RegId) (o : BitVec 6),
    exec (.st rs2 rs1 o) (s.withData m) =
      mapNext (·.withData
          (Memory.write m (effAddr (s.reg rs1).value o).toNat (s.reg rs2).value))
        (exec (.st rs2 rs1 o) s))

/-- The control-signal table against the meanings, every column read as spec/45_control_signals.md
section 1 reads it from general knowledge. First, only opcode 10 has no control word. Second, who has a 1
in which column, and the ALU code. Third, what the signals of an instruction word choose is what the
instruction does: the register written and the value it gets, the data cell read or written, and the
next pc. The field positions are the spec's layout decision D1, Reg Dst of LUI and LLI is read as its
conflict C5 resolves it, the table does not tell BEQ from BNE (the opcode does), and the first ALU input
is log entry 9's. Where LD meets a cell nothing has written (the spec's decision D7) the value is the
free value of log entry 4. -/
def Obligations.ControlWordsAgreeWithEffects : Prop :=
  (∀ i : Instr, controlOf i = none ↔ ∃ w, i = .illegal w) ∧
  (∀ (i : Instr) (c : ControlWord), controlOf i = some c →
    c.regWrite = i.dest.isSome ∧ c.memToReg = isLoad i ∧ c.memRead = isLoad i ∧
    c.memWrite = isStore i ∧
    (c.branch = true ↔ ∃ rs1 rs2 o, i = .beq rs1 rs2 o ∨ i = .bne rs1 rs2 o) ∧
    (c.jump = true ↔ ∃ imm, i = .jmp imm) ∧
    ∃ op, aluOperationOf i = some op ∧ c.aluOp = aluCode op) ∧
  (∀ (w : Word) (c : ControlWord) (op : AluOperation) (s t : State),
    controlOf (decode w) = some c → aluOperationOf (decode w) = some op →
    exec (decode w) s = .next t →
    let r := aluResult s.params op (s.reg (fieldA w)).value (aluSecondInput c s w)
    (decode w).dest = (if c.regWrite = true then some (destField c w) else none) ∧
    (c.regWrite = false → ∀ q, t.reg q = s.reg q) ∧
    (c.regWrite = true → c.memToReg = false → (t.reg (destField c w)).value = r) ∧
    (c.regWrite = true → c.memToReg = true → (t.reg (destField c w)).value =
      (Memory.read s.dmem r.toNat).getD (Config.unwrittenCell r)) ∧
    (c.memWrite = true → Memory.read t.dmem r.toNat = some (s.reg (fieldB w)).value) ∧
    (c.memWrite = false → t.dmem = s.dmem) ∧
    (c.branch = true → t.pc =
      if (r = 0 ↔ opField w = 11) then branchTarget s.pc (offset6Field w) else s.pc + 4) ∧
    (c.jump = true → t.pc = jumpTarget (imm12Field w)) ∧
    (c.branch = false → c.jump = false → t.pc = s.pc + 4))

/-- The second ALU Op table (spec/45_control_signals.md) against the meanings, the ALU inputs of LUI and
LLI as log entry 9 says: the ALU operation the table names for the opcode computes the written
value, the address or the branch comparison. -/
def Obligations.AluOperationsExplainEffects : Prop :=
  ∀ (i : Instr) (s t : State) (op : AluOperation), aluOperationOf i = some op →
    exec i s = .next t →
    match i with
    | .ld _ rs1 o => dataAddress s i =
        some (aluResult s.params op (s.reg rs1).value (o.signExtend 16))
    | .st _ rs1 o => dataAddress s i =
        some (aluResult s.params op (s.reg rs1).value (o.signExtend 16))
    | .add rd rs1 rs2 => (t.reg rd).value =
        aluResult s.params op (s.reg rs1).value (s.reg rs2).value
    | .sub rd rs1 rs2 => (t.reg rd).value =
        aluResult s.params op (s.reg rs1).value (s.reg rs2).value
    | .inv rd rs1 => ∀ b, (t.reg rd).value = aluResult s.params op (s.reg rs1).value b
    | .lsl rd rs1 rs2 => (t.reg rd).value =
        aluResult s.params op (s.reg rs1).value (s.reg rs2).value
    | .lsr rd rs1 rs2 => (t.reg rd).value =
        aluResult s.params op (s.reg rs1).value (s.reg rs2).value
    | .and rd rs1 rs2 => (t.reg rd).value =
        aluResult s.params op (s.reg rs1).value (s.reg rs2).value
    | .or rd rs1 rs2 => (t.reg rd).value =
        aluResult s.params op (s.reg rs1).value (s.reg rs2).value
    | .slt rd rs1 rs2 => (t.reg rd).value =
        aluResult s.params op (s.reg rs1).value (s.reg rs2).value
    | .illegal _ => False
    | .beq rs1 rs2 o => t.pc =
        if aluResult s.params op (s.reg rs1).value (s.reg rs2).value = 0
        then branchTarget s.pc o else s.pc + 4
    | .bne rs1 rs2 o => t.pc =
        if aluResult s.params op (s.reg rs1).value (s.reg rs2).value = 0
        then s.pc + 4 else branchTarget s.pc o
    | .jmp _ => op = .add
    | .lui rd b => (t.reg rd).value =
        aluResult s.params op (s.reg rd).value (b.setWidth 16)
    | .lli rd b => (t.reg rd).value =
        aluResult s.params op (s.reg rd).value (b.setWidth 16)

/-- The effects of the idioms, as the spec derives them in spec/30_encoding.md section 9. -/
def Obligations.IdiomsHaveTheirEffect : Prop :=
  ∀ s : State,
    (∀ rd k, ∃ i j t u, idiomLoadConst rd k = [i, j] ∧ exec i s = .next t ∧ exec j t = .next u ∧
      u.reg rd = fullReg k) ∧
    (∀ rd rs, s.readable rs = true → ∃ t u, exec (idiomCopy rd rs) s = .next t ∧
      WritesOnly s t rd (fullReg (s.reg rs).value) ∧ exec (idiomCopyAnd rd rs) s = .next u ∧
      WritesOnly s u rd (fullReg (s.reg rs).value)) ∧
    (∀ rd rs, s.readable rs = true → ∃ t, exec (idiomClear rd rs) s = .next t ∧
      WritesOnly s t rd (fullReg 0)) ∧
    ((s.reg 0).defined = true → exec idiomNop s = .next s.advance) ∧
    (∀ o, s.readable 0 = true →
      exec (idiomBranch o) s = .next (s.jumpTo (branchTarget s.pc o))) ∧
    (s.pc.toNat < 0x4000 → s.pc.toNat % 4 = 0 → exec (idiomStop s.pc) s = .next s)

/-- Two stores in canonical form that read alike at every address are the same data: the model's
representation (log entry 5). -/
def Obligations.CanonicalStoresAreEqualWhenTheyReadAlike : Prop :=
  ∀ m n : Memory, Memory.wf m → Memory.wf n → (∀ a, Memory.read m a = Memory.read n a) → m = n
end

