-- ==== Sys2Proof/Laws/Decode.lean ====
section
/-! SUPPORT. The fields of an assembled word, layout by layout, and the sixteen opcodes. -/

namespace Sys2Proof

@[simp] theorem opField_encodeOffset (op : BitVec 4) (a b : RegId) (o : BitVec 6) :
    opField (encodeOffset op a b o) = op := by
  apply BitVec.eq_of_getLsbD_eq
  intro i hi
  simp only [opField, encodeOffset, BitVec.getLsbD_extractLsb', BitVec.getLsbD_append]
  interval_cases i <;> rfl

@[simp] theorem fieldA_encodeOffset (op : BitVec 4) (a b : RegId) (o : BitVec 6) :
    fieldA (encodeOffset op a b o) = a := by
  apply BitVec.eq_of_getLsbD_eq
  intro i hi
  simp only [fieldA, encodeOffset, BitVec.getLsbD_extractLsb', BitVec.getLsbD_append]
  interval_cases i <;> rfl

@[simp] theorem fieldB_encodeOffset (op : BitVec 4) (a b : RegId) (o : BitVec 6) :
    fieldB (encodeOffset op a b o) = b := by
  apply BitVec.eq_of_getLsbD_eq
  intro i hi
  simp only [fieldB, encodeOffset, BitVec.getLsbD_extractLsb', BitVec.getLsbD_append]
  interval_cases i <;> rfl

@[simp] theorem offset6Field_encodeOffset (op : BitVec 4) (a b : RegId) (o : BitVec 6) :
    offset6Field (encodeOffset op a b o) = o := by
  apply BitVec.eq_of_getLsbD_eq
  intro i hi
  simp only [offset6Field, encodeOffset, BitVec.getLsbD_extractLsb', BitVec.getLsbD_append]
  interval_cases i <;> rfl

@[simp] theorem opField_encodeData (op : BitVec 4) (a b c : RegId) :
    opField (encodeData op a b c) = op := by
  apply BitVec.eq_of_getLsbD_eq
  intro i hi
  simp only [opField, encodeData, BitVec.getLsbD_extractLsb', BitVec.getLsbD_append]
  interval_cases i <;> rfl

@[simp] theorem fieldA_encodeData (op : BitVec 4) (a b c : RegId) :
    fieldA (encodeData op a b c) = a := by
  apply BitVec.eq_of_getLsbD_eq
  intro i hi
  simp only [fieldA, encodeData, BitVec.getLsbD_extractLsb', BitVec.getLsbD_append]
  interval_cases i <;> rfl

@[simp] theorem fieldB_encodeData (op : BitVec 4) (a b c : RegId) :
    fieldB (encodeData op a b c) = b := by
  apply BitVec.eq_of_getLsbD_eq
  intro i hi
  simp only [fieldB, encodeData, BitVec.getLsbD_extractLsb', BitVec.getLsbD_append]
  interval_cases i <;> rfl

@[simp] theorem fieldC_encodeData (op : BitVec 4) (a b c : RegId) :
    fieldC (encodeData op a b c) = c := by
  apply BitVec.eq_of_getLsbD_eq
  intro i hi
  simp only [fieldC, encodeData, BitVec.getLsbD_extractLsb', BitVec.getLsbD_append]
  interval_cases i <;> rfl

@[simp] theorem opField_encodeImm (op : BitVec 4) (a : RegId) (b : Byte) :
    opField (encodeImm op a b) = op := by
  apply BitVec.eq_of_getLsbD_eq
  intro i hi
  simp only [opField, encodeImm, BitVec.getLsbD_extractLsb', BitVec.getLsbD_append]
  interval_cases i <;> rfl

@[simp] theorem fieldA_encodeImm (op : BitVec 4) (a : RegId) (b : Byte) :
    fieldA (encodeImm op a b) = a := by
  apply BitVec.eq_of_getLsbD_eq
  intro i hi
  simp only [fieldA, encodeImm, BitVec.getLsbD_extractLsb', BitVec.getLsbD_append]
  interval_cases i <;> rfl

@[simp] theorem imm8Field_encodeImm (op : BitVec 4) (a : RegId) (b : Byte) :
    imm8Field (encodeImm op a b) = b := by
  apply BitVec.eq_of_getLsbD_eq
  intro i hi
  simp only [imm8Field, encodeImm, BitVec.getLsbD_extractLsb', BitVec.getLsbD_append]
  interval_cases i <;> rfl

@[simp] theorem opField_encodeJmp (imm : BitVec 12) :
    opField (13#4 ++ imm : Word) = 13 := by
  apply BitVec.eq_of_getLsbD_eq
  intro i hi
  simp only [opField, BitVec.getLsbD_extractLsb', BitVec.getLsbD_append]
  interval_cases i <;> rfl

@[simp] theorem imm12Field_encodeJmp (imm : BitVec 12) :
    imm12Field (13#4 ++ imm : Word) = imm := by
  apply BitVec.eq_of_getLsbD_eq
  intro i hi
  simp only [imm12Field, BitVec.getLsbD_extractLsb', BitVec.getLsbD_append]
  interval_cases i <;> rfl

/-- Every opcode is one of the sixteen. -/
theorem opField_cases (w : Word) :
    opField w = 0 ∨ opField w = 1 ∨ opField w = 2 ∨ opField w = 3 ∨ opField w = 4 ∨ opField w = 5 ∨
    opField w = 6 ∨ opField w = 7 ∨ opField w = 8 ∨ opField w = 9 ∨ opField w = 10 ∨
    opField w = 11 ∨ opField w = 12 ∨ opField w = 13 ∨ opField w = 14 ∨ opField w = 15 := by
  generalize opField w = op
  revert op; decide

end Sys2Proof
end

