-- ==== Sys2Proof/Laws/State.lean ====
section
/-! SUPPORT. One lemma per field per update of the state. -/

namespace Sys2Proof.Machine

@[simp] theorem State.setReg_regs (s : State) (r : RegId) (x : Reg) : (s.setReg r x).regs = s.regs.set r.toNat x r.isLt := rfl
@[simp] theorem State.setReg_pc (s : State) (r : RegId) (x : Reg) : (s.setReg r x).pc = s.pc := rfl
@[simp] theorem State.setReg_dmem (s : State) (r : RegId) (x : Reg) : (s.setReg r x).dmem = s.dmem := rfl
@[simp] theorem State.setReg_imem (s : State) (r : RegId) (x : Reg) : (s.setReg r x).imem = s.imem := rfl
@[simp] theorem State.setReg_params (s : State) (r : RegId) (x : Reg) : (s.setReg r x).params = s.params := rfl
@[simp] theorem State.writeReg_pc (s : State) (r : RegId) (v : Word) : (s.writeReg r v).pc = s.pc := rfl
@[simp] theorem State.writeReg_dmem (s : State) (r : RegId) (v : Word) : (s.writeReg r v).dmem = s.dmem := rfl
@[simp] theorem State.writeReg_imem (s : State) (r : RegId) (v : Word) : (s.writeReg r v).imem = s.imem := rfl
@[simp] theorem State.writeReg_params (s : State) (r : RegId) (v : Word) : (s.writeReg r v).params = s.params := rfl
@[simp] theorem State.writeHigh_pc (s : State) (r : RegId) (b : Byte) : (s.writeHigh r b).pc = s.pc := rfl
@[simp] theorem State.writeHigh_dmem (s : State) (r : RegId) (b : Byte) : (s.writeHigh r b).dmem = s.dmem := rfl
@[simp] theorem State.writeHigh_imem (s : State) (r : RegId) (b : Byte) : (s.writeHigh r b).imem = s.imem := rfl
@[simp] theorem State.writeHigh_params (s : State) (r : RegId) (b : Byte) : (s.writeHigh r b).params = s.params := rfl
@[simp] theorem State.writeLow_pc (s : State) (r : RegId) (b : Byte) : (s.writeLow r b).pc = s.pc := rfl
@[simp] theorem State.writeLow_dmem (s : State) (r : RegId) (b : Byte) : (s.writeLow r b).dmem = s.dmem := rfl
@[simp] theorem State.writeLow_imem (s : State) (r : RegId) (b : Byte) : (s.writeLow r b).imem = s.imem := rfl
@[simp] theorem State.writeLow_params (s : State) (r : RegId) (b : Byte) : (s.writeLow r b).params = s.params := rfl
@[simp] theorem State.jumpTo_regs (s : State) (p : Word) : (s.jumpTo p).regs = s.regs := rfl
@[simp] theorem State.jumpTo_pc (s : State) (p : Word) : (s.jumpTo p).pc = p := rfl
@[simp] theorem State.jumpTo_dmem (s : State) (p : Word) : (s.jumpTo p).dmem = s.dmem := rfl
@[simp] theorem State.jumpTo_imem (s : State) (p : Word) : (s.jumpTo p).imem = s.imem := rfl
@[simp] theorem State.jumpTo_params (s : State) (p : Word) : (s.jumpTo p).params = s.params := rfl
@[simp] theorem State.advance_regs (s : State) : (s.advance).regs = s.regs := rfl
@[simp] theorem State.advance_pc (s : State) : (s.advance).pc = s.pc + 4 := rfl
@[simp] theorem State.advance_dmem (s : State) : (s.advance).dmem = s.dmem := rfl
@[simp] theorem State.advance_imem (s : State) : (s.advance).imem = s.imem := rfl
@[simp] theorem State.advance_params (s : State) : (s.advance).params = s.params := rfl
@[simp] theorem State.setCell_regs (s : State) (a v : Word) : (s.setCell a v).regs = s.regs := rfl
@[simp] theorem State.setCell_pc (s : State) (a v : Word) : (s.setCell a v).pc = s.pc := rfl
@[simp] theorem State.setCell_dmem (s : State) (a v : Word) : (s.setCell a v).dmem = Memory.write s.dmem a.toNat v := rfl
@[simp] theorem State.setCell_imem (s : State) (a v : Word) : (s.setCell a v).imem = s.imem := rfl
@[simp] theorem State.setCell_params (s : State) (a v : Word) : (s.setCell a v).params = s.params := rfl

/-- A register write changes that register and no other. -/
theorem State.reg_setReg (s : State) (r q : RegId) (x : Reg) :
    (s.setReg r x).reg q = if q = r then x else s.reg q := by
  simp only [State.reg, State.setReg, Vector.getElem_set, BitVec.toNat_eq, eq_comm]

@[simp] theorem State.reg_setReg_same (s : State) (r : RegId) (x : Reg) :
    (s.setReg r x).reg r = x := by simp [State.reg_setReg]

theorem State.reg_setReg_other (s : State) {r q : RegId} (x : Reg) (h : q ≠ r) :
    (s.setReg r x).reg q = s.reg q := by simp [State.reg_setReg, h]

@[simp] theorem State.reg_jumpTo (s : State) (p : Word) (q : RegId) :
    (s.jumpTo p).reg q = s.reg q := rfl

@[simp] theorem State.reg_advance (s : State) (q : RegId) : s.advance.reg q = s.reg q := rfl

@[simp] theorem State.reg_setCell (s : State) (a v : Word) (q : RegId) :
    (s.setCell a v).reg q = s.reg q := rfl

@[simp] theorem State.readable_jumpTo (s : State) (p : Word) (q : RegId) :
    (s.jumpTo p).readable q = s.readable q := rfl

@[simp] theorem State.readable_advance (s : State) (q : RegId) :
    s.advance.readable q = s.readable q := rfl

@[simp] theorem State.readable_setCell (s : State) (a v : Word) (q : RegId) :
    (s.setCell a v).readable q = s.readable q := rfl

@[simp] theorem State.cell_jumpTo (s : State) (p a : Word) : (s.jumpTo p).cell a = s.cell a := rfl

@[simp] theorem State.cell_advance (s : State) (a : Word) : s.advance.cell a = s.cell a := rfl

@[simp] theorem State.cell_setReg (s : State) (r : RegId) (x : Reg) (a : Word) :
    (s.setReg r x).cell a = s.cell a := rfl

/-- The byte LUI writes and the byte it keeps. -/
@[simp] theorem Reg.high_append (b c : Byte) (h l : Bool) :
    Reg.high { value := b ++ c, hiDefined := h, loDefined := l } = b := by
  apply BitVec.eq_of_getLsbD_eq
  intro i hi
  simp only [Reg.high, BitVec.getLsbD_extractLsb', BitVec.getLsbD_append]
  interval_cases i <;> rfl

@[simp] theorem Reg.low_append (b c : Byte) (h l : Bool) :
    Reg.low { value := b ++ c, hiDefined := h, loDefined := l } = c := by
  apply BitVec.eq_of_getLsbD_eq
  intro i hi
  simp only [Reg.low, BitVec.getLsbD_extractLsb', BitVec.getLsbD_append]
  interval_cases i <;> rfl

/-- A register is its two bytes. -/
theorem Reg.high_append_low (x : Reg) : x.high ++ x.low = x.value := by
  simp only [Reg.high, Reg.low]; ext i hi
  simp only [BitVec.getElem_append, BitVec.getElem_extractLsb']
  split
  · simp [BitVec.getLsbD_eq_getElem, hi]
  · rw [show 8 + (i - 8) = i by omega]; simp [BitVec.getLsbD_eq_getElem, hi]

end Sys2Proof.Machine
end

