-- ==== Sys2Proof/Laws/Ops.lean ====
section
/-! SUPPORT. What each shared operation can do: its answer where its checks pass, and what is known
when it answers a next state. -/

namespace Sys2Proof.Machine

theorem readable_anyValue {s : State} (h : s.params.uninitRead = .anyValue) (r : RegId) :
    s.readable r = true := by simp [State.readable, h]

theorem readable_fault {s : State} (h : s.params.uninitRead = .fault) (r : RegId) :
    s.readable r = (s.reg r).defined := by simp [State.readable, h]

theorem cellReadable_anyValue {s : State} (h : s.params.uninitRead = .anyValue) (a : Word) :
    s.cellReadable a = true := by simp [State.cellReadable, h]

theorem cellReadable_fault {s : State} (h : s.params.uninitRead = .fault) (a : Word) :
    s.cellReadable a = (Memory.read s.dmem a.toNat).isSome := by simp [State.cellReadable, h]

theorem cell_listed {s : State} {a v : Word} (h : Memory.read s.dmem a.toNat = some v) :
    s.cell a = v := by simp [State.cell, h]

theorem cell_unlisted {s : State} {a : Word} (h : Memory.read s.dmem a.toNat = none) :
    s.cell a = Config.unwrittenCell a := by simp [State.cell, h]

theorem withCell_valid {s : State} {a : Word} (hv : s.dataValid a = true) (k : Word → Result) :
    withCell s a k = k (s.cell a) := by simp [withCell, hv]

theorem withCell_stuck {s : State} {a : Word} (hv : s.dataValid a = false) (k : Word → Result) :
    withCell s a k = .fault (.stuckData s.pc a) := by simp [withCell, hv]

theorem withCell_eq_next {s : State} {a : Word} {k : Word → Result} {t : State} :
    withCell s a k = .next t ↔ s.dataValid a = true ∧ k (s.cell a) = .next t := by
  unfold withCell; split <;> simp_all

theorem withStore_valid {s : State} {a : Word} (hv : s.dataValid a = true) (v : Word)
    (k : State → Result) : withStore s a v k = k (s.setCell a v) := by simp [withStore, hv]

theorem withStore_stuck {s : State} {a : Word} (hv : s.dataValid a = false) (v : Word)
    (k : State → Result) : withStore s a v k = .fault (.stuckData s.pc a) := by simp [withStore, hv]

theorem withStore_eq_next {s : State} {a v : Word} {k : State → Result} {t : State} :
    withStore s a v k = .next t ↔ s.dataValid a = true ∧ k (s.setCell a v) = .next t := by
  unfold withStore; split <;> simp_all

theorem dataOp_eq_next {f : Word → Word → Word} {rd rs1 rs2 : RegId} {s t : State} :
    dataOp f rd rs1 rs2 s = .next t ↔
      t = (s.writeReg rd (f (s.reg rs1).value (s.reg rs2).value)).advance := by
  rw [dataOp, Host.Outcome.next.injEq, eq_comm]

theorem branchIf_eq_next {cond : Word → Word → Bool} {rs1 rs2 : RegId} {o : BitVec 6}
    {s t : State} :
    branchIf cond rs1 rs2 o s = .next t ↔
      t = if cond (s.reg rs1).value (s.reg rs2).value
        then s.jumpTo (branchTarget s.pc o) else s.advance := by
  rw [branchIf, Host.Outcome.next.injEq, eq_comm]

theorem step_of_fetch {s : State} {w : Word} (h : s.fetch = some w) :
    step s = exec (decode w) s := by simp [step, h]

theorem step_of_no_fetch {s : State} (h : s.fetch = none) :
    step s = .fault (.stuckFetch s.pc) := by simp [step, h]

end Sys2Proof.Machine
end

