-- ==== Sys2Proof/Laws/Definedness.lean ====
section
/-! SUPPORT. What the spec's step can do: under `any_value` it is the machine's step, and where it is not
`UninitRead` it is the machine's step under either value. -/

namespace Sys2Proof.Machine

@[simp] theorem toSpec_eq_next {r : Result} {t : State} : toSpec r = .next t ↔ r = .next t := by
  cases r <;> simp [toSpec]

theorem toSpec_ne_uninitRead (r : Result) (e : ReadFault) : toSpec r ≠ .fault (.uninitRead e) := by
  cases r <;> simp [toSpec]

theorem undefinedLoad_anyValue {s : State} (h : s.params.uninitRead = .anyValue) (i : Instr) :
    undefinedLoad s i = none := by
  cases i <;> simp [undefinedLoad, cellReadable_anyValue h]

/-- Under `any_value` no instruction is `UninitRead`. -/
theorem readFault_anyValue {s : State} (h : s.params.uninitRead = .anyValue) (i : Instr) :
    readFault s i = none := by
  have hf : i.operands.find? (fun r => !s.readable r) = none := by
    simp [readable_anyValue h]
  simp [readFault, hf, undefinedLoad_anyValue h]

/-- The spec's step is `UninitRead` of the instruction at the pc, or it is the machine's step. -/
theorem specStep_cases (s : State) :
    (∃ w e, s.fetch = some w ∧ readFault s (decode w) = some e ∧
      specStep s = .fault (.uninitRead e)) ∨
    ((∀ w, s.fetch = some w → readFault s (decode w) = none) ∧ specStep s = toSpec (step s)) := by
  cases hw : s.fetch with
  | none => exact .inr ⟨nofun, by simp [specStep, step, hw, toSpec]⟩
  | some w =>
    cases he : readFault s (decode w) with
    | none =>
      refine .inr ⟨?_, by simp [specStep, step, hw, he]⟩
      rintro _ ⟨⟩; exact he
    | some e => exact .inl ⟨w, e, rfl, he, by simp [specStep, hw, he]⟩

/-- A next state of the spec's step is the machine's next state. -/
theorem step_of_specStep {s t : State} (h : specStep s = .next t) : step s = .next t := by
  rcases specStep_cases s with ⟨_, _, _, _, hs⟩ | ⟨_, hs⟩ <;> rw [hs] at h
  · cases h
  · exact toSpec_eq_next.1 h

end Sys2Proof.Machine
end

