-- ==== Sys2Proof/Laws/Memory.lean ====
section
/-! SUPPORT. The laws of a store of cells: reading what was written, and the canonical form. -/

namespace Sys2Proof.Machine

/-- A read after a write to the same address gives the value written. -/
@[simp] theorem Memory.read_write_same (m : Memory) (a : Nat) (v : Word) :
    Memory.read (Memory.write m a v) a = some v := by
  induction m with
  | nil => simp [Memory.write, Memory.read]
  | cons c rest ih =>
    obtain ⟨k, u⟩ := c
    simp only [Memory.write]
    split
    · simp [Memory.read]
    · split
      · simp [Memory.read]
      · simp [Memory.read, *]

/-- A write leaves every other address alone. -/
theorem Memory.read_write_other (m : Memory) {a b : Nat} (v : Word) (h : b ≠ a) :
    Memory.read (Memory.write m a v) b = Memory.read m b := by
  induction m with
  | nil => simp [Memory.write, Memory.read, h]
  | cons c rest ih =>
    obtain ⟨k, u⟩ := c
    simp only [Memory.write]
    split
    · simp [Memory.read, h]
    · split
      · subst_vars; simp [Memory.read, h]
      · simp [Memory.read, ih]

/-- The cells of a written store are the old ones and the new one. -/
theorem Memory.mem_write {m : Memory} {a : Nat} {v : Word} {c : Nat × Word}
    (h : c ∈ Memory.write m a v) : c = (a, v) ∨ c ∈ m := by
  induction m with
  | nil => simpa [Memory.write] using h
  | cons d rest ih =>
    obtain ⟨k, u⟩ := d
    simp only [Memory.write] at h
    split at h
    · simpa using h
    · split at h
      · rcases List.mem_cons.1 h with h | h
        · exact .inl h
        · exact .inr (List.mem_cons_of_mem _ h)
      · rcases List.mem_cons.1 h with h | h
        · exact .inr (h ▸ List.mem_cons_self)
        · exact (ih h).imp id (List.mem_cons_of_mem _)

/-- A write keeps the addresses strictly rising. -/
theorem Memory.write_rising {m : Memory} (a : Nat) (v : Word)
    (h : m.Pairwise (fun c d => c.1 < d.1)) :
    (Memory.write m a v).Pairwise (fun c d => c.1 < d.1) := by
  induction m with
  | nil => simp [Memory.write]
  | cons d rest ih =>
    obtain ⟨k, u⟩ := d
    obtain ⟨hk, hrest⟩ := List.pairwise_cons.1 h
    simp only [Memory.write]
    split
    · rename_i hak
      refine List.pairwise_cons.2 ⟨fun c hc => ?_, h⟩
      rcases List.mem_cons.1 hc with rfl | hc
      · exact hak
      · exact Nat.lt_trans hak (hk c hc)
    · split
      · subst_vars; exact List.pairwise_cons.2 ⟨hk, hrest⟩
      · refine List.pairwise_cons.2 ⟨fun c hc => ?_, ih hrest⟩
        rcases Memory.mem_write hc with rfl | hc
        · show k < a; omega
        · exact hk c hc

/-- A write to a 16-bit address keeps the canonical form. -/
theorem Memory.write_wf {m : Memory} {a : Nat} (v : Word) (h : Memory.wf m) (ha : a < 65536) :
    Memory.wf (Memory.write m a v) := by
  refine ⟨Memory.write_rising a v h.1, fun c hc => ?_⟩
  rcases Memory.mem_write hc with rfl | hc
  · exact ha
  · exact h.2 c hc

/-- Placing a word in a slot keeps the canonical form of the instruction store. -/
theorem Memory.write_slotsWf {m : Memory} {a : Nat} (v : Word) (h : Memory.slotsWf m)
    (ha : a < 65536) (h4 : a % 4 = 0) : Memory.slotsWf (Memory.write m a v) := by
  refine ⟨Memory.write_wf v h.1 ha, fun c hc => ?_⟩
  rcases Memory.mem_write hc with rfl | hc
  · exact h4
  · exact h.2 c hc

/-- Only listed addresses hold a value. -/
theorem Memory.mem_of_read {m : Memory} {a : Nat} {v : Word} (h : Memory.read m a = some v) :
    (a, v) ∈ m := by
  induction m with
  | nil => simp [Memory.read] at h
  | cons c rest ih =>
    obtain ⟨k, u⟩ := c
    simp only [Memory.read] at h
    split at h
    · simp_all
    · exact List.mem_cons_of_mem _ (ih h)

/-- The data memory after `setCell`: still canonical. -/
theorem State.setCell_dmem_wf {s : State} (a v : Word) (h : Memory.wf s.dmem) :
    Memory.wf (s.setCell a v).dmem := Memory.write_wf v h a.isLt

/-- The cells of a program image lie at or above its base. -/
theorem le_of_mem_programImage {a : Nat} {p : List Word} {c : Nat × Word}
    (h : c ∈ programImage a p) : a ≤ c.1 := by
  induction p generalizing a with
  | nil => simp [programImage] at h
  | cons w rest ih =>
    rcases List.mem_cons.1 h with rfl | h
    · exact Nat.le_refl _
    · have := ih h; omega

/-- A program image lists its slots in strictly rising order. -/
theorem programImage_rising (a : Nat) (p : List Word) :
    (programImage a p).Pairwise (fun c d => c.1 < d.1) := by
  induction p generalizing a with
  | nil => simp [programImage]
  | cons w rest ih =>
    refine List.pairwise_cons.2 ⟨fun c hc => ?_, ih _⟩
    have := le_of_mem_programImage hc
    show a < c.1; omega

/-- The slots of a program image are 4 apart and end with the program. -/
theorem programImage_bounds {a : Nat} {p : List Word} {c : Nat × Word}
    (h : c ∈ programImage a p) : c.1 % 4 = a % 4 ∧ c.1 < a + 4 * p.length := by
  induction p generalizing a with
  | nil => simp [programImage] at h
  | cons w rest ih =>
    rcases List.mem_cons.1 h with rfl | h
    · simp
    · have := ih h; simp only [List.length_cons]; omega

/-- Loading a program of at most 16,384 words gives a canonical instruction store. -/
theorem State.loadProgram_slotsWf (s : State) {p : List Word} (h : p.length ≤ 16384) :
    Memory.slotsWf (s.loadProgram p).imem := by
  refine ⟨⟨programImage_rising 0 p, fun c hc => ?_⟩, fun c hc => ?_⟩ <;>
    have := programImage_bounds hc <;> omega

/-- Loading a data image keeps the canonical form. -/
theorem State.loadData_dmem_wf (s : State) (image : List (Word × Word)) (h : Memory.wf s.dmem) :
    Memory.wf (s.loadData image).dmem := by
  induction image generalizing s with
  | nil => exact h
  | cons c rest ih => exact ih (s.setCell c.1 c.2) (State.setCell_dmem_wf _ _ h)

end Sys2Proof.Machine
end

