-- ==== Sys2Proof/Laws/Exec.lean ====
section
/-! SUPPORT. What one instruction can do: if it answers a next state, that state is the old one with
one register written and the pc advanced, or with one data cell written and the pc advanced, or with
only the pc moved. -/

namespace Sys2Proof.Machine

theorem exec_next_cases {i : Instr} {s t : State} (h : exec i s = .next t) :
    (∃ rd x, i.dest = some rd ∧ t = (s.setReg rd x).advance ∧
      ((s.reg rd).hiDefined = true → x.hiDefined = true) ∧
      ((s.reg rd).loDefined = true → x.loDefined = true)) ∨
    (∃ rs2 rs1 o, i = .st rs2 rs1 o ∧
      t = (s.setCell (effAddr (s.reg rs1).value o) (s.reg rs2).value).advance) ∨
    (i.dest = none ∧ (t = s.advance ∨ (∃ rs1 rs2 o, (i = .beq rs1 rs2 o ∨ i = .bne rs1 rs2 o) ∧
      t = s.jumpTo (branchTarget s.pc o)) ∨
      ∃ imm, i = .jmp imm ∧ t = s.jumpTo (jumpTarget imm))) := by
  cases i with
  | ld rd rs1 o =>
    simp only [exec, execLd] at h
    obtain ⟨-, h⟩ := withCell_eq_next.1 h
    cases h; exact .inl ⟨rd, _, rfl, rfl, by simp, by simp⟩
  | st rs2 rs1 o =>
    simp only [exec, execSt] at h
    obtain ⟨-, h⟩ := withStore_eq_next.1 h
    cases h; exact .inr (.inl ⟨rs2, rs1, o, rfl, rfl⟩)
  | inv rd rs1 =>
    simp only [exec, execInv] at h
    cases h; exact .inl ⟨rd, _, rfl, rfl, by simp, by simp⟩
  | illegal w =>
    simp only [exec, execIllegal] at h; cases h
  | beq rs1 rs2 o =>
    simp only [exec, execBeq] at h
    have h := branchIf_eq_next.1 h
    refine .inr (.inr ⟨rfl, ?_⟩)
    split at h
    · exact .inr (.inl ⟨_, _, _, .inl rfl, h⟩)
    · exact .inl h
  | bne rs1 rs2 o =>
    simp only [exec, execBne] at h
    have h := branchIf_eq_next.1 h
    refine .inr (.inr ⟨rfl, ?_⟩)
    split at h
    · exact .inr (.inl ⟨_, _, _, .inr rfl, h⟩)
    · exact .inl h
  | jmp imm =>
    simp only [exec, execJmp] at h
    cases h; exact .inr (.inr ⟨rfl, .inr (.inr ⟨imm, rfl, rfl⟩)⟩)
  | lui rd b =>
    simp only [exec, execLui] at h
    cases h; exact .inl ⟨rd, _, rfl, rfl, by simp, by simp⟩
  | lli rd b =>
    simp only [exec, execLli] at h
    cases h; exact .inl ⟨rd, _, rfl, rfl, by simp, by simp⟩
  | add rd rs1 rs2 | sub rd rs1 rs2 | and rd rs1 rs2 | or rd rs1 rs2 | lsl rd rs1 rs2
  | lsr rd rs1 rs2 | slt rd rs1 rs2 =>
    simp only [exec, execAdd, execSub, execAnd, execOr, execLsl, execLsr, execSlt] at h
    obtain rfl := dataOp_eq_next.1 h
    exact .inl ⟨rd, _, rfl, rfl, by simp, by simp⟩

end Sys2Proof.Machine
end

