-- ==== Sys2Proof/Laws/PerInstr.lean ====
section
/-! SUPPORT. Statements about every instruction as a term, one lemma per constructor. -/

namespace Sys2Proof.Laws.EncodedOpcode

/-- The word of a well-formed instruction carries the opcode of spec/30_encoding.md R63. -/
def Statement (i : Instr) : Prop := i.wellFormed = true → opField (encode i) = i.opcode

theorem ld (rd rs1 : RegId) (o : BitVec 6) : Statement (.ld rd rs1 o) := fun _ => opField_encodeOffset _ _ _ _

theorem st (rs2 rs1 : RegId) (o : BitVec 6) : Statement (.st rs2 rs1 o) := fun _ => opField_encodeOffset _ _ _ _

theorem add (rd rs1 rs2 : RegId) : Statement (.add rd rs1 rs2) := fun _ => opField_encodeData _ _ _ _

theorem sub (rd rs1 rs2 : RegId) : Statement (.sub rd rs1 rs2) := fun _ => opField_encodeData _ _ _ _

theorem inv (rd rs1 : RegId) : Statement (.inv rd rs1) := fun _ => opField_encodeData _ _ _ _

theorem lsl (rd rs1 rs2 : RegId) : Statement (.lsl rd rs1 rs2) := fun _ => opField_encodeData _ _ _ _

theorem lsr (rd rs1 rs2 : RegId) : Statement (.lsr rd rs1 rs2) := fun _ => opField_encodeData _ _ _ _

theorem and (rd rs1 rs2 : RegId) : Statement (.and rd rs1 rs2) := fun _ => opField_encodeData _ _ _ _

theorem or (rd rs1 rs2 : RegId) : Statement (.or rd rs1 rs2) := fun _ => opField_encodeData _ _ _ _

theorem slt (rd rs1 rs2 : RegId) : Statement (.slt rd rs1 rs2) := fun _ => opField_encodeData _ _ _ _

theorem beq (rs1 rs2 : RegId) (o : BitVec 6) : Statement (.beq rs1 rs2 o) := fun _ => opField_encodeOffset _ _ _ _

theorem bne (rs1 rs2 : RegId) (o : BitVec 6) : Statement (.bne rs1 rs2 o) := fun _ => opField_encodeOffset _ _ _ _

theorem jmp (imm : BitVec 12) : Statement (.jmp imm) := fun _ => opField_encodeJmp _

theorem lui (rd : RegId) (b : Byte) : Statement (.lui rd b) := fun _ => opField_encodeImm _ _ _

theorem lli (rd : RegId) (b : Byte) : Statement (.lli rd b) := fun _ => opField_encodeImm _ _ _

theorem illegal (word : Word) : Statement (.illegal word) := fun h => eq_of_beq h

end Sys2Proof.Laws.EncodedOpcode
end

