-- ==== Sys2Proof/Laws/Safety.lean ====
section
/-! SUPPORT. The frames of the commonest updates, what other parameters or data leave as it is, and what an
undefined byte hides. -/

namespace Sys2Proof.Machine

/-- Writing a register and advancing changes that register and the pc only. -/
theorem setReg_advance_writesOnly (s : State) (rd : RegId) (x : Reg) :
    WritesOnly s (s.setReg rd x).advance rd x :=
  ⟨by simp, fun _ h => by simp [State.reg_setReg_other _ _ h], rfl, fun _ => rfl, rfl, rfl⟩

/-- Writing a whole register and advancing. -/
theorem writeReg_advance_writesOnly (s : State) (rd : RegId) (v : Word) :
    WritesOnly s (s.writeReg rd v).advance rd (fullReg v) := setReg_advance_writesOnly s rd _

/-- Moving the pc changes the pc only. -/
theorem jumpTo_movesOnly (s : State) (p : Word) : MovesOnly s (s.jumpTo p) p :=
  ⟨fun _ => rfl, rfl, fun _ => rfl, rfl, rfl⟩

/-- Storing a cell and advancing changes that cell and the pc only. -/
theorem setCell_advance_storesOnly (s : State) (a v : Word) :
    StoresOnly s (s.setCell a v).advance a v :=
  ⟨by simp, fun _ h => Memory.read_write_other _ _ h, fun _ => rfl, rfl, rfl, rfl⟩

@[simp] theorem State.reg_withData (s : State) (m : Memory) (r : RegId) :
    (s.withData m).reg r = s.reg r := rfl

@[simp] theorem State.readable_withData (s : State) (m : Memory) (r : RegId) :
    (s.withData m).readable r = s.readable r := rfl

@[simp] theorem State.dataValid_withData (s : State) (m : Memory) (a : Word) :
    (s.withData m).dataValid a = s.dataValid a := rfl

@[simp] theorem State.dmem_withData (s : State) (m : Memory) : (s.withData m).dmem = m := rfl

/-! ### Another value of `UNINIT_READ` -/

@[simp] theorem State.reg_withUninit (s : State) (p : Config.UninitRead) (r : RegId) :
    (s.withUninit p).reg r = s.reg r := rfl

@[simp] theorem State.pc_withUninit (s : State) (p : Config.UninitRead) :
    (s.withUninit p).pc = s.pc := rfl

@[simp] theorem State.cell_withUninit (s : State) (p : Config.UninitRead) (a : Word) :
    (s.withUninit p).cell a = s.cell a := rfl

@[simp] theorem State.dataValid_withUninit (s : State) (p : Config.UninitRead) (a : Word) :
    (s.withUninit p).dataValid a = s.dataValid a := rfl

@[simp] theorem State.fetch_withUninit (s : State) (p : Config.UninitRead) :
    (s.withUninit p).fetch = s.fetch := rfl

/-! ### Runs and marks -/

theorem runSteps_succ_next {k : Nat} {s t u : State} (h : step s = .next t)
    (hk : runSteps k t = .next u) : runSteps (k + 1) s = .next u := by simp [runSteps, h, hk]

/-- A register with both bytes defined holds the same value in two registers that agree where
defined. -/
theorem AgreesWhereDefined.value_eq {x y : Reg} (h : AgreesWhereDefined x y)
    (hx : x.defined = true) : x.value = y.value := by
  simp only [Reg.defined, Bool.and_eq_true] at hx
  rw [← Reg.high_append_low x, ← Reg.high_append_low y, h.high hx.1, h.low hx.2]

end Sys2Proof.Machine
end

