-- ==== Sys2Proof/Tests/Slice0.lean ====
section
/-! SUPPORT. Small tests. Expected values come from spec/95_test_vectors.md (its section and row in each
comment) or from the rule cited. The last part holds, for every statement with hypotheses, a witness
that they can hold together. -/

namespace Sys2Proof.Tests

open Sys2Proof.Machine

/-- A state with some registers and cells defined, `pc` 0x0100 as in section 3 of the vectors. -/
def at0100 (rs : List (RegId × Word)) (cells : List (Word × Word)) : State :=
  rs.foldl (fun s c => s.writeReg c.1 c.2) ((State.reset.loadData cells).jumpTo 0x0100)

/-- A field of the next state. -/
def after (i : Instr) (s : State) (f : State → Word) : Option Word :=
  match exec i s with
  | .next t => some (f t)
  | .fault _ => none
  | .refused _ => none

/-- The value of a register. -/
def val (r : RegId) (s : State) : Word := (s.reg r).value

/-! ### Well-formedness -/

/-- R67: a word whose opcode is not 10 is no illegal word. -/
theorem test_wellFormed_refuses_legal_word : (Instr.illegal 0x2298).wellFormed = false := by decide

theorem test_wellFormed_accepts_opcode_ten : (Instr.illegal 0xAFFF).wellFormed = true := by decide

/-! ### Decoding: words of section 2 of the vectors, one per constructor -/

theorem test_decode_ld : decode 0x0283 = .ld 2 1 3 := by decide

theorem test_decode_ld_negative : decode 0x01E0 = .ld 7 0 32 := by decide

theorem test_decode_st : decode 0x1F5F = .st 5 7 31 := by decide

theorem test_decode_add_noncanonical : decode 0x229F = .add 3 1 2 := by decide

theorem test_decode_sub : decode 0x3298 = .sub 3 1 2 := by decide

theorem test_decode_inv_noncanonical : decode 0x42D8 = .inv 3 1 := by decide

theorem test_decode_lsl : decode 0x5298 = .lsl 3 1 2 := by decide

theorem test_decode_lsr : decode 0x6298 = .lsr 3 1 2 := by decide

theorem test_decode_and : decode 0x7298 = .and 3 1 2 := by decide

theorem test_decode_or : decode 0x8298 = .or 3 1 2 := by decide

theorem test_decode_slt : decode 0x9298 = .slt 3 1 2 := by decide

theorem test_decode_illegal : decode 0xA123 = .illegal 0xA123 := by decide

theorem test_decode_beq : decode 0xB285 = .beq 1 2 5 := by decide

theorem test_decode_bne : decode 0xC83E = .bne 4 0 62 := by decide

theorem test_decode_jmp : decode 0xDFFF = .jmp 4095 := by decide

theorem test_decode_lui_noncanonical : decode 0xE312 = .lui 1 0x12 := by decide

theorem test_decode_lli : decode 0xF234 = .lli 1 0x34 := by decide

theorem test_encode_ld : encode (.ld 2 1 63) = 0x02BF := by decide

theorem test_encode_st : encode (.st 2 1 63) = 0x12BF := by decide

theorem test_encode_add : encode (.add 7 7 7) = 0x2FF8 := by decide

theorem test_encode_inv : encode (.inv 3 1) = 0x4218 := by decide

theorem test_encode_bne : encode (.bne 7 7 31) = 0xCFDF := by decide

theorem test_encode_jmp : encode (.jmp 5) = 0xD005 := by decide

theorem test_encode_lui : encode (.lui 7 0xFF) = 0xEEFF := by decide

/-! ### Text (R70, R71) -/

theorem test_asm_ld : asmText (decode 0x02BF) = "LD r2, -1(r1)" := by decide

/-! ### Effects: rows of section 3 of the vectors -/

theorem test_ld_wraps_below_zero :
    after (.ld 2 1 63) (at0100 [(1, 0x0000)] [(0xFFFF, 0x00AA)]) (val 2) = some 0x00AA := by
  decide

theorem test_ld_rd_is_rs1 :
    after (.ld 1 1 0) (at0100 [(1, 0x0200)] [(0x0200, 0x0300)]) (val 1) = some 0x0300 := by
  decide

theorem test_st_wraps_past_top :
    after (.st 5 7 31) (at0100 [(7, 0xFFF0), (5, 0xFFFF)] []) (fun t => (Memory.read t.dmem 0x000F).getD 0) = some 0xFFFF := by
  decide

theorem test_st_base_is_value :
    after (.st 3 3 0) (at0100 [(3, 0x0042)] []) (fun t => (Memory.read t.dmem 0x0042).getD 0) = some 0x0042 := by
  decide

theorem test_add_wraps :
    after (.add 3 1 2) (at0100 [(1, 0xFFFF), (2, 0x0001)] []) (val 3) = some 0x0000 := by
  decide

theorem test_add_doubles_itself :
    after (.add 1 1 1) (at0100 [(1, 0x4001)] []) (val 1) = some 0x8002 := by
  decide

theorem test_sub_borrows :
    after (.sub 3 1 2) (at0100 [(1, 0x0005), (2, 0x0007)] []) (val 3) = some 0xFFFE := by
  decide

theorem test_inv :
    after (.inv 3 1) (at0100 [(1, 0x00FF)] []) (val 3) = some 0xFF00 := by
  decide

theorem test_lsl_plain :
    after (.lsl 3 1 2) (at0100 [(1, 0x00F1), (2, 0x0004)] []) (val 3) = some 0x0F10 := by
  decide

theorem test_lsl_by_16 :
    after (.lsl 3 1 2) (at0100 [(1, 0xFFFF), (2, 0x0010)] []) (val 3) = some 0x0000 := by
  decide

theorem test_lsr_is_logical :
    after (.lsr 3 1 2) (at0100 [(1, 0x8000), (2, 0x0001)] []) (val 3) = some 0x4000 := by
  decide

theorem test_lsr_by_32768 :
    after (.lsr 3 1 2) (at0100 [(1, 0x8000), (2, 0x8000)] []) (val 3) = some 0x0000 := by
  decide

theorem test_and :
    after (.and 3 1 2) (at0100 [(1, 0x0FF0), (2, 0x3C3C)] []) (val 3) = some 0x0C30 := by
  decide

theorem test_or :
    after (.or 3 1 2) (at0100 [(1, 0x0FF0), (2, 0x3C3C)] []) (val 3) = some 0x3FFC := by
  decide

theorem test_slt_overflowing_difference :
    after (.slt 3 1 2) (at0100 [(1, 0x8000), (2, 0x0001)] []) (val 3) = some 0x0001 := by
  decide

theorem test_slt_positive_not_below_negative :
    after (.slt 3 1 2) (at0100 [(1, 0x7FFF), (2, 0x8000)] []) (val 3) = some 0x0000 := by
  decide

theorem test_beq_wraps_below_zero :
    after (.beq 1 2 62) (State.jumpTo (at0100 [(1, 0x0005), (2, 0x0005)] []) 0x0000) State.pc = some 0xFFFC := by
  decide

theorem test_beq_not_taken_wraps :
    after (.beq 1 2 1) (State.jumpTo (at0100 [(1, 0x0005), (2, 0x0006)] []) 0xFFFC) State.pc = some 0x0000 := by
  decide

theorem test_bne_loops_back :
    after (.bne 4 0 62) (State.jumpTo (at0100 [(4, 0x0003), (0, 0x0000)] []) 0x0020) State.pc = some 0x001C := by
  decide

theorem test_bne_same_register :
    after (.bne 7 7 31) (State.jumpTo (at0100 [(7, 0x0009)] []) 0x0020) State.pc = some 0x0024 := by
  decide

theorem test_jmp_drops_upper_bits :
    after (.jmp 5) (State.jumpTo (at0100 [] []) 0xFFFC) State.pc = some 0x0014 := by
  decide

theorem test_jmp_is_unsigned :
    after (.jmp 2048) (State.jumpTo (at0100 [] []) 0x0000) State.pc = some 0x2000 := by
  decide

theorem test_lui_keeps_low :
    after (.lui 1 0x12) (at0100 [(1, 0xABCD)] []) (val 1) = some 0x12CD := by
  decide

theorem test_lli_does_not_extend :
    after (.lli 7 0x80) (at0100 [(7, 0x0000)] []) (val 7) = some 0x0080 := by
  decide

theorem test_or_advances :
    after (.or 3 1 2) (at0100 [(1, 0x0001), (2, 0x0002)] []) State.pc = some 0x0104 := by
  decide

/-! ### Stops: rows of section 5 of the vectors -/

/-- The state after reset and loading a program, with the spec's default parameters. -/
def loaded (p : List Word) : State := State.reset.loadProgram p

/-- The fault a step stops with. -/
def stops (s : State) : Option Fault :=
  match step s with
  | .next _ => none
  | .fault f => some f
  | .refused _ => none

/-- The fault the spec's step stops with (column "default"). -/
def specStops (s : State) : Option SpecFault :=
  match specStep s with
  | .next _ => none
  | .fault f => some f
  | .refused _ => none

theorem test_opcode_ten_faults : stops (loaded [0xA000]) = some (.illegalOpcode 0 0xA000) := by
  decide

theorem test_empty_slot_is_stuck : stops State.reset = some (.stuckFetch 0) := by decide

theorem test_sub_of_unwritten_faults :
    specStops (loaded [0x3000]) = some (.uninitRead (.reg 0 0)) := by decide

/-- Row `0xE212`, `0x2250`: one defined byte is not enough. -/
theorem test_half_defined_faults :
    specStops (((loaded [0xE212, 0x2250]).writeHigh 1 0x12).jumpTo 4) =
      some (.uninitRead (.reg 4 1)) := by decide

/-- Row `0xE200`, `0xF200`, `0x0280`: the cell was never written. -/
theorem test_ld_of_unwritten_faults :
    specStops ((loaded [0x0280]).writeReg 1 0) = some (.uninitRead (.mem 0 0)) := by decide

/-- Row `0x3000`, column "under any_value": one step, `x[0]` = 0x0000, pc = 0x0004. The machine's own step
is that step. -/
theorem test_sub_of_unwritten_runs :
    (specStops ((loaded [0x3000]).withUninit .anyValue) = none) ∧
      after (.sub 0 0 0) (loaded [0x3000]) (val 0) = some 0x0000 ∧
      after (.sub 0 0 0) (loaded [0x3000]) State.pc = some 0x0004 := by decide

/-- `DMEM_VALID` with the upper half absent: R46. -/
def halfMemory (s : State) : State :=
  { s with params := { s.params with dmemAbsent := [{ first := 0x8000, last := 0xFFFF }] } }

theorem test_st_to_absent_is_stuck :
    stops (halfMemory ((State.reset.loadProgram [0x1280]).writeReg 1 0x8000)) =
      some (.stuckData 0 0x8000) := by decide

/-- The last existing address is below the absent range. -/
theorem test_st_below_absent_runs :
    stops (halfMemory ((State.reset.loadProgram [0x1280]).writeReg 1 0x7FFF)) = none := by decide

/-- From reset, nothing written: a read of an unwritten register is no fault of the machine. -/
theorem test_first_instruction_runs_from_reset :
    stops (State.reset.withFetchWord 16 0x3000) = none := by decide

/-! ### Witnesses: the hypotheses of each statement can hold together -/

/-- A state with operands: r1 = 0x0100, r2 = 3, the cell 0x0103 defined. -/
def sample : State :=
  (at0100 [(1, 0x0100), (2, 3)] [(0x0103, 0xBEEF)]).withUninit .anyValue

/-- The same data under the spec's default `UNINIT_READ`. -/
def strict : State := sample.withUninit .fault

theorem test_witness_EncodeFollowsFormulaAndInvertsDecode :
    (Instr.illegal 0xA000).wellFormed = true ∧ (Instr.ld 7 0 63).wellFormed = true := by decide

/-- The field hypotheses hold of the fields themselves, and each opcode clause has a word. -/
theorem test_witness_DecodeReadsFieldsByOpcode :
    ((1 : RegId).toNat = (0x12BF : Word).toNat / 512 % 8 ∧
      (2 : RegId).toNat = (0x12BF : Word).toNat / 64 % 8 ∧
      (7 : RegId).toNat = (0x12BF : Word).toNat / 8 % 8 ∧
      (63 : BitVec 6).toNat = (0x12BF : Word).toNat % 64 ∧
      (0xBF : Byte).toNat = (0x12BF : Word).toNat % 256 ∧
      (0x2BF : BitVec 12).toNat = (0x12BF : Word).toNat % 4096) ∧
    ∀ n : Fin 16, (BitVec.ofNat 16 (n.val * 4096)).toNat / 4096 = n.val := by decide

/-- The lowest and the highest opcode of the first clause, INV, LUI and LLI, with every ignored bit
set. -/
theorem test_witness_IgnoredBitsChangeNothing :
    (2 ≤ (opField 0x2298).toNat ∧ (opField 0x9298).toNat ≤ 9 ∧ (7 : Word) &&& 0x0007 = 7) ∧
    (opField 0x4218 = 4 ∧ (0x01C7 : Word) &&& 0x01C7 = 0x01C7) ∧
    (opField 0xE212 = 14 ∧ opField 0xF234 = 15 ∧ (0x0100 : Word) &&& 0x0100 = 0x0100) ∧
    (Instr.inv 3 1).wellFormed = true := by decide

theorem test_witness_LoadedResetStateIsAsSpecified :
    [(0xE212 : Word), 0xF234].length ≤ 16384 ∧ 1 < [(0xE212 : Word), 0xF234].length ∧
      (6 % 4 ≠ 0 ∨ 4 * [(0xE212 : Word), 0xF234].length ≤ 6) ∧
      (8 % 4 ≠ 0 ∨ 4 * [(0xE212 : Word), 0xF234].length ≤ 8) := by decide

theorem test_witness_StepKeepsInvariant :
    (State.reset.withFetchWord 16 0xE212).Inv ∧
      ∃ t, step (State.reset.withFetchWord 16 0xE212) = .next t :=
  ⟨⟨by decide, by decide, by decide⟩, _, rfl⟩

theorem test_witness_PcStaysMultipleOfFour :
    sample.pc.toNat % 4 = 0 ∧ ∃ t, exec (.jmp 4095) sample = .next t := ⟨by decide, _, rfl⟩

/-- For the statements about every instruction that answers a next state. -/
theorem test_witness_ProgramAndParametersNeverChange :
    (∃ t, exec (.st 2 1 0) sample = .next t) ∧ (∃ t, exec (.lui 2 0) sample = .next t) ∧
      ∃ t, exec (.bne 1 2 31) sample = .next t := ⟨⟨_, rfl⟩, ⟨_, rfl⟩, ⟨_, rfl⟩⟩

theorem test_witness_StepRunsDecodedInstruction :
    (loaded [0xE212]).fetch = some 0xE212 := by decide

/-- A state for each branch of the statement: no word, opcode 10, an unreadable operand, no data
address, an absent one, an unwritten cell under `fault`, and a load that runs. -/
theorem test_witness_StepOutcomesInOrder :
    State.reset.fetch = none ∧
    (loaded [0xA000]).fetch = some 0xA000 ∧ opField 0xA000 = 10 ∧
    (decode 0x3000).operands.find? (fun r => !(loaded [0x3000]).readable r) = some 0 ∧
    dataAddress State.reset (decode 0xE212) = none ∧
    (halfMemory (sample.writeReg 1 0x8000)).dataValid 0x8000 = false ∧
    (isLoad (decode 0x0280) = true ∧ Memory.read strict.dmem 0x0100 = none ∧
      strict.params.uninitRead = .fault) ∧
    Memory.read strict.dmem 0x0103 = some 0xBEEF := by decide

theorem test_witness_OpcodeTenIsIllegalOpcode :
    (loaded [0xAFFF]).fetch = some 0xAFFF ∧ opField 0xAFFF = 10 := by decide

/-- `rs1` before `rs2`, and `rs2` when only it is unreadable: ADD r0, r5, r4 and ST r5, 0(r1). -/
theorem test_witness_FirstUnreadableOperandIsReported :
    ((strict.loadProgram [0x2B00]).jumpTo 0).fetch = some 0x2B00 ∧
    (decode 0x2B00).operands.find?
      (fun q => !((strict.loadProgram [0x2B00]).jumpTo 0).readable q) = some 5 ∧
    ((strict.loadProgram [0x1340]).jumpTo 0).fetch = some 0x1340 ∧
    (decode 0x1340).operands.find?
      (fun q => !((strict.loadProgram [0x1340]).jumpTo 0).readable q) = some 5 := by decide

theorem test_witness_AnyValueNeverFaultsOnReads :
    (State.reset.withUninit .anyValue).params.uninitRead = .anyValue ∧
    step State.reset = .fault (.stuckFetch 0) ∧
    step (State.reset.withFetchWord 16 0xA000) = .fault (.illegalOpcode 0 0xA000) ∧
    step (halfMemory ((State.reset.withFetchWord 16 0x1280).writeReg 1 0x8000)) =
      .fault (.stuckData 0 0x8000) := ⟨rfl, rfl, rfl, rfl⟩

/-- ADD of registers nothing has written, LD of a cell that exists, and a run under `any_value`. -/
theorem test_witness_UnwrittenReadNeverStopsTheMachine :
    (∀ w, Instr.add 0 1 2 ≠ .illegal w) ∧ dataAddress State.reset (.add 0 1 2) = none ∧
      (State.reset.reg 1).defined = false ∧
      dataAddress State.reset (.ld 0 1 0) = some 0 ∧ State.reset.dataValid 0 = true ∧
      sample.params.uninitRead = .anyValue :=
  ⟨nofun, by decide, by decide, by decide, by decide, by decide⟩

theorem test_witness_DefinedStaysDefined :
    (∃ t, step ((loaded [0xF234]).writeHigh 1 0x12) = .next t) ∧
    (((loaded [0xF234]).writeHigh 1 0x12).reg 1).hiDefined = true ∧
    (strict.reg 1).loDefined = true ∧ Memory.read strict.dmem 0x0103 ≠ none :=
  ⟨⟨_, rfl⟩, by decide, by decide, by decide⟩

theorem test_witness_FaultPolicyRunsAgreeWithAnyValue :
    (loaded [0xE212, 0xF234]).params.uninitRead = .fault ∧
      ∃ t, runSpec 2 (loaded [0xE212, 0xF234]) = .next t := ⟨rfl, _, rfl⟩

/-- Two states that differ in what an undefined byte holds, and look the same. -/
theorem test_witness_UndefinedBytesCannotBeLearned :
    let s := loaded [0xE212]
    let t := s.setReg 1 { value := 0xABCD, hiDefined := false, loDefined := false }
    s.params.uninitRead = .fault ∧ LooksSame s t ∧ s ≠ t := by
  refine ⟨rfl, ⟨fun r => ?_, rfl, rfl, rfl, rfl⟩, by decide⟩
  rw [State.reg_setReg]
  split
  · subst_vars; exact ⟨rfl, rfl, nofun, nofun⟩
  · exact ⟨rfl, rfl, fun _ => rfl, fun _ => rfl⟩

theorem test_witness_LdLoadsDefinedCell :
    sample.readable 1 = true ∧ sample.dataValid (effAddr (sample.reg 1).value 3) = true ∧
      Memory.read sample.dmem (effAddr (sample.reg 1).value 3).toNat = some 0xBEEF := by decide

/-- The machine, and the spec's step under `fault` with LD r2, 0(r1) in the slot at the pc. -/
theorem test_witness_LdOfUnwrittenCell :
    (sample.dataValid (effAddr (sample.reg 1).value 4) = true ∧
      Memory.read sample.dmem (effAddr (sample.reg 1).value 4).toNat = none) ∧
    let s := strict.withFetchWord 16 0x0280
    s.fetch = some 0x0280 ∧ decode 0x0280 = .ld 2 1 0 ∧ s.params.uninitRead = .fault ∧
      (s.reg 1).defined = true ∧ s.dataValid (effAddr (s.reg 1).value 0) = true ∧
      Memory.read s.dmem (effAddr (s.reg 1).value 0).toNat = none := by decide

theorem test_witness_StStoresCell :
    strict.readable 1 = true ∧ strict.readable 2 = true ∧
      strict.dataValid (effAddr (strict.reg 1).value 32) = true := by decide

theorem test_witness_AbsentDataAddressIsStuck :
    (halfMemory (strict.writeReg 1 0x8000)).readable 1 = true ∧
    (halfMemory (strict.writeReg 1 0x8000)).readable 2 = true ∧
    (halfMemory (strict.writeReg 1 0x8000)).dataValid
      (effAddr ((halfMemory (strict.writeReg 1 0x8000)).reg 1).value 0) = false := by decide

/-- The vector "store then load" of section 3.1: two bases, one address. -/
theorem test_witness_LoadReturnsStoredValue :
    let s := at0100 [(1, 0x0100), (2, 0xCAFE), (4, 0x0101)] []
    (∃ t, exec (.st 2 1 5) s = .next t) ∧ s.readable 4 = true ∧
      effAddr (s.reg 4).value 4 = effAddr (s.reg 1).value 5 := ⟨⟨_, rfl⟩, by decide, by decide⟩

/-- Two readable operands, under either value of `UNINIT_READ`: the hypotheses of the statements about
ADD, SUB, INV, AND, OR, SLT, BEQ, BNE and of the one that compares BEQ and BNE. -/
theorem test_witness_readable_operands :
    sample.readable 1 = true ∧ sample.readable 2 = true ∧ strict.readable 1 = true ∧
      strict.readable 2 = true := by decide

/-- LSL and LSR: a count in range, 3, and one out of range, 0x0100. -/
theorem test_witness_LslShiftsLeft_LsrShiftsRight :
    strict.readable 1 = true ∧ strict.readable 2 = true ∧
      strict.params.shiftAmount = .wholeRegister ∧ ¬ 16 ≤ (strict.reg 2).value.toNat ∧
      16 ≤ (strict.reg 1).value.toNat := by decide

theorem test_witness_LowFourBitShifts :
    (strict.withShift .lowFourBits).readable 1 = true ∧
      (strict.withShift .lowFourBits).readable 2 = true ∧
      (strict.withShift .lowFourBits).params.shiftAmount = .lowFourBits := by decide

theorem test_witness_SmallShiftsIgnoreShiftAmount :
    ((strict.writeReg 2 15).reg 2).value.toNat < 16 := by decide

/-- Equal top bits, both clear and both set. -/
theorem test_witness_SameSignSltIgnoresSltSigned :
    (sample.reg 1).value.msb = (sample.reg 2).value.msb ∧
      ((sample.writeReg 1 0xFFFE).reg 1).value.msb =
        (((sample.writeReg 1 0xFFFE).writeReg 2 0xFFFF).reg 2).value.msb := by decide

theorem test_witness_NextPcFollowsSummary :
    (∃ t, exec (.beq 1 1 5) sample = .next t) ∧ (∃ t, exec (.bne 1 2 5) sample = .next t) ∧
      (∃ t, exec (.jmp 5) sample = .next t) ∧ ∃ t, exec (.ld 1 1 3) sample = .next t :=
  ⟨⟨_, rfl⟩, ⟨_, rfl⟩, ⟨_, rfl⟩, ⟨_, rfl⟩⟩

/-- The nearest and the farthest label of a branch, and the highest of a jump. -/
theorem test_witness_LabelsReachTheirAddress :
    (((0x0180 : Word) - 0x0100 + 124).toNat ≤ 252 ∧ ((0x0180 : Word) - 0x0100).toNat % 4 = 0) ∧
    (((0x0084 : Word) - 0x0100 + 124).toNat ≤ 252 ∧ ((0x0084 : Word) - 0x0100).toNat % 4 = 0) ∧
    (0x3FFC : Word).toNat < 0x4000 ∧ (0x3FFC : Word).toNat % 4 = 0 := by decide

/-- Row `0xD000` of section 5: the run has ended before any step. -/
theorem test_witness_EndedRunStaysAsItIs : (State.reset.loadProgram [0xD000]).Ended :=
  ⟨0xD000, 0, by decide, by decide, by decide⟩

theorem test_witness_OnlyTheNamedRegisterIsWritten :
    (∃ t, exec (.add 3 1 2) sample = .next t) ∧ (Instr.add 3 1 2).dest ≠ some 1 ∧
      (Instr.st 2 1 0).dest ≠ some 1 := ⟨⟨_, rfl⟩, by decide, by decide⟩

/-- Two states that differ in a register ADD does not read. -/
theorem test_witness_OnlyOperandsMatter :
    let s' := sample.writeReg 5 0xFFFF
    sample.pc = s'.pc ∧ sample.dmem = s'.dmem ∧ sample.params = s'.params ∧
      (∀ r ∈ (Instr.add 3 1 2).operands, sample.reg r = s'.reg r) ∧
      ∃ t, exec (.add 3 1 2) sample = .next t :=
  ⟨rfl, rfl, rfl, by decide, _, rfl⟩

theorem test_witness_OnlyStoresChangeData :
    (∃ t, exec (.st 2 1 0) sample = .next t) ∧ isStore (.st 2 1 0) = true ∧
      dataAddress sample (.st 2 1 0) = some 0x0100 ∧ (0x0101 : Nat) ≠ (0x0100 : Word).toNat ∧
      isStore (.ld 2 1 0) = false := ⟨⟨_, rfl⟩, by decide, by decide, by decide, by decide⟩

theorem test_witness_OnlyLoadsReadData :
    isLoad (.add 3 1 2) = false ∧ isStore (.add 3 1 2) = false := by decide

/-- A word for each clause of the statement: LD, ST, ADD, BEQ, BNE, JMP, LUI, LLI. -/
theorem test_witness_ControlWordsAgreeWithEffects :
    (controlOf (decode 0x0283) = some loadControl ∧ aluOperationOf (decode 0x0283) = some .add ∧
      ∃ t, exec (decode 0x0283) sample = .next t) ∧
    (controlOf (decode 0x1280) = some storeControl ∧ aluOperationOf (decode 0x1280) = some .add ∧
      ∃ t, exec (decode 0x1280) sample = .next t) ∧
    (controlOf (decode 0x2298) = some (dataControl .add) ∧
      aluOperationOf (decode 0x2298) = some .add ∧ ∃ t, exec (decode 0x2298) sample = .next t) ∧
    (controlOf (decode 0xB285) = some branchControl ∧ aluOperationOf (decode 0xB285) = some .sub ∧
      ∃ t, exec (decode 0xB285) sample = .next t) ∧
    (controlOf (decode 0xC285) = some branchControl ∧ aluOperationOf (decode 0xC285) = some .sub ∧
      ∃ t, exec (decode 0xC285) sample = .next t) ∧
    (controlOf (decode 0xD005) = some jumpControl ∧ aluOperationOf (decode 0xD005) = some .add ∧
      ∃ t, exec (decode 0xD005) sample = .next t) ∧
    (controlOf (decode 0xE312) = some (immControl .lui) ∧
      aluOperationOf (decode 0xE312) = some .lui ∧ ∃ t, exec (decode 0xE312) sample = .next t) ∧
    (controlOf (decode 0xF234) = some (immControl .lli) ∧
      aluOperationOf (decode 0xF234) = some .lli ∧ ∃ t, exec (decode 0xF234) sample = .next t) :=
  ⟨⟨by decide, by decide, _, rfl⟩, ⟨by decide, by decide, _, rfl⟩, ⟨by decide, by decide, _, rfl⟩,
    ⟨by decide, by decide, _, rfl⟩, ⟨by decide, by decide, _, rfl⟩, ⟨by decide, by decide, _, rfl⟩,
    ⟨by decide, by decide, _, rfl⟩, ⟨by decide, by decide, _, rfl⟩⟩

/-- LD of a cell nothing has written completes, for the free value in the Memto Reg clause. -/
theorem test_witness_ControlWords_unwritten_cell :
    controlOf (decode 0x0280) = some loadControl ∧
      Memory.read sample.dmem 0x0100 = none ∧ ∃ t, exec (decode 0x0280) sample = .next t :=
  ⟨by decide, by decide, _, rfl⟩

theorem test_witness_AluOperationsExplainEffects :
    aluOperationOf (.lui 1 0x12) = some .lui ∧ aluOperationOf (.beq 1 2 5) = some .sub ∧
      (∃ t, exec (.lui 1 0x12) sample = .next t) ∧ ∃ t, exec (.beq 1 2 5) sample = .next t :=
  ⟨rfl, rfl, ⟨_, rfl⟩, ⟨_, rfl⟩⟩

theorem test_witness_IdiomsHaveTheirEffect :
    strict.readable 1 = true ∧ ((strict.writeReg 0 0).reg 0).defined = true ∧
      (strict.writeReg 0 0).readable 0 = true ∧ strict.pc.toNat < 0x4000 ∧
      strict.pc.toNat % 4 = 0 := by decide

theorem test_witness_CanonicalStoresAreEqualWhenTheyReadAlike :
    Memory.wf [(0, 1), (65535, 2)] ∧
      ∀ a, Memory.read [(0, 1), (65535, 2)] a = Memory.read [(0, 1), (65535, 2)] a :=
  ⟨by decide, fun _ => rfl⟩

end Sys2Proof.Tests
end

/-! LD and ST where the data address exists, and what each changes and leaves
(spec/40_load_store.md). -/

namespace Sys2Proof.Machine

/-- LD at an existing address, whether or not anything has written the cell (R100, R45). -/
theorem exec_ld_of_dataValid {s : State} {rs1 : RegId} {o : BitVec 6}
    (hv : s.dataValid (effAddr (s.reg rs1).value o) = true) (rd : RegId) :
    exec (.ld rd rs1 o) s =
      .next (s.writeReg rd (s.cell (effAddr (s.reg rs1).value o))).advance := by
  rw [exec, execLd, withCell_valid hv]

/-- ST at an existing address (R101, R46). -/
theorem exec_st_of_dataValid {s : State} {rs1 : RegId} {o : BitVec 6}
    (hv : s.dataValid (effAddr (s.reg rs1).value o) = true) (rs2 : RegId) :
    exec (.st rs2 rs1 o) s =
      .next (s.setCell (effAddr (s.reg rs1).value o) (s.reg rs2).value).advance := by
  rw [exec, execSt, withStore_valid hv]

/-- Settles O24: a written cell reads as its word, and LD writes that word to `rd` and advances. The
machine goes on with any base (log entry 2), so the readable base is not used. -/
theorem ldLoadsDefinedCell : Obligations.LdLoadsDefinedCell := by
  unfold Obligations.LdLoadsDefinedCell
  intro s rd rs1 o v _ hv hcell
  refine ⟨(s.writeReg rd v).advance, ?_, writeReg_advance_writesOnly s rd v⟩
  rw [exec_ld_of_dataValid hv, cell_listed hcell]

/-- Settles O26: ST sets the cell at the effective address and advances. The machine goes on with
any operands (log entry 2), so the readable operands are not used. -/
theorem stStoresCell : Obligations.StStoresCell := by
  unfold Obligations.StStoresCell
  intro s rs2 rs1 o _ _ hv
  exact ⟨_, exec_st_of_dataValid hv rs2, setCell_advance_storesOnly s _ _⟩

end Sys2Proof.Machine

/-! Data processing: the operand form of two sources and that of INV, what each changes and leaves,
and what the results of INV, AND, OR and SLT are (spec/41_data_processing.md). The machine goes on
with any operands (log entry 2), so the readable operands of the statements below are not used. -/

namespace Sys2Proof.Machine

/-! ### The operand forms -/

/-- R110: the operand form with two sources completes at every state. -/
theorem dataOp_completes (f : Word → Word → Word) (rd rs1 rs2 : RegId) (s : State) :
    ∃ t, dataOp f rd rs1 rs2 s = .next t ∧
      WritesOnly s t rd (fullReg (f (s.reg rs1).value (s.reg rs2).value)) :=
  ⟨_, dataOp_eq_next.2 rfl, writeReg_advance_writesOnly s rd _⟩

theorem exec_inv_completes (rd rs1 : RegId) (s : State) :
    ∃ t, exec (.inv rd rs1) s = .next t ∧
      WritesOnly s t rd (fullReg (invResult (s.reg rs1).value)) :=
  ⟨_, rfl, writeReg_advance_writesOnly s rd _⟩

theorem exec_and_eq_dataOp (rd rs1 rs2 : RegId) (s : State) :
    exec (.and rd rs1 rs2) s = dataOp andResult rd rs1 rs2 s := rfl

theorem exec_or_eq_dataOp (rd rs1 rs2 : RegId) (s : State) :
    exec (.or rd rs1 rs2) s = dataOp orResult rd rs1 rs2 s := rfl

theorem exec_slt_eq_dataOp (rd rs1 rs2 : RegId) (s : State) :
    exec (.slt rd rs1 rs2) s = dataOp (sltResult s.params.sltSigned) rd rs1 rs2 s := rfl

/-! ### The results -/

theorem getLsbD_invResult (a : Word) {n : Nat} (hn : n < 16) :
    (invResult a).getLsbD n = !a.getLsbD n := by
  simp [invResult, hn]

/-- R113 (c). -/
theorem toNat_invResult (a : Word) : (invResult a).toNat = 65535 - a.toNat := by
  simp [invResult]

theorem getLsbD_andResult (a b : Word) (n : Nat) :
    (andResult a b).getLsbD n = true ↔ a.getLsbD n = true ∧ b.getLsbD n = true := by
  rw [andResult, BitVec.getLsbD_and, Bool.and_eq_true]

theorem getLsbD_orResult (a b : Word) (n : Nat) :
    (orResult a b).getLsbD n = true ↔ a.getLsbD n = true ∨ b.getLsbD n = true := by
  rw [orResult, BitVec.getLsbD_or, Bool.or_eq_true]

/-- R119: the comparison is of the two numbers themselves. -/
theorem lessThan_iff (signed : Bool) (a b : Word) :
    lessThan signed a b = true ↔ if signed = true then a.toInt < b.toInt else a.toNat < b.toNat := by
  cases signed with
  | true => simp [lessThan, BitVec.slt_iff_toInt_lt]
  | false => simp [lessThan, BitVec.ult_iff_lt, BitVec.lt_def]

theorem sltResult_eq (signed : Bool) (a b : Word) :
    sltResult signed a b =
      if (if signed = true then a.toInt < b.toInt else a.toNat < b.toNat) then 0x0001 else 0x0000 := by
  simp only [sltResult, lessThan_iff]

/-! ### The statements -/

/-- Settles O32: INV writes `invResult`; its bits and its number are two facts about that result. -/
theorem invWritesComplement : Obligations.InvWritesComplement := by
  unfold Obligations.InvWritesComplement
  intro s rd rs1 _
  obtain ⟨t, ht, hw⟩ := exec_inv_completes rd rs1 s
  exact ⟨t, _, ht, hw, fun _ hn => getLsbD_invResult _ hn, toNat_invResult _⟩

/-- Settles O37: AND is the operand form with `andResult`, read bit by bit. -/
theorem andWritesBitwiseAnd : Obligations.AndWritesBitwiseAnd := by
  unfold Obligations.AndWritesBitwiseAnd
  intro s rd rs1 rs2 _ _
  obtain ⟨t, ht, hw⟩ := dataOp_completes andResult rd rs1 rs2 s
  exact ⟨t, _, (exec_and_eq_dataOp ..).trans ht, hw, fun n _ => getLsbD_andResult _ _ n⟩

/-- Settles O38: OR is the operand form with `orResult`, read bit by bit. -/
theorem orWritesBitwiseOr : Obligations.OrWritesBitwiseOr := by
  unfold Obligations.OrWritesBitwiseOr
  intro s rd rs1 rs2 _ _
  obtain ⟨t, ht, hw⟩ := dataOp_completes orResult rd rs1 rs2 s
  exact ⟨t, _, (exec_or_eq_dataOp ..).trans ht, hw, fun n _ => getLsbD_orResult _ _ n⟩

/-- Settles O39: SLT is the operand form with `sltResult`, which compares the numbers under either
value of `SLT_SIGNED`. -/
theorem sltWritesComparison : Obligations.SltWritesComparison := by
  unfold Obligations.SltWritesComparison
  intro s rd rs1 rs2 _ _
  obtain ⟨t, ht, hw⟩ := dataOp_completes (sltResult s.params.sltSigned) rd rs1 rs2 s
  exact ⟨t, (exec_slt_eq_dataOp ..).trans ht, sltResult_eq s.params.sltSigned _ _ ▸ hw⟩

end Sys2Proof.Machine

/-! LUI and LLI: a byte of `rd` is replaced and the other byte is kept, value and mark
(spec/44_load_immediate.md). Both complete at every state. -/

namespace Sys2Proof.Machine

/-! ### The numbers of a word's bytes -/

theorem toNat_byte_append (b c : Byte) : (b ++ c).toNat = b.toNat * 256 + c.toNat := by
  rw [BitVec.toNat_append, ← Nat.shiftLeft_add_eq_or_of_lt c.isLt, Nat.shiftLeft_eq]

theorem Reg.toNat_high (x : Reg) : x.high.toNat = x.value.toNat / 256 := by
  have hx : x.value.toNat < 65536 := x.value.isLt
  rw [Reg.high, BitVec.extractLsb'_toNat, Nat.shiftRight_eq_div_pow]
  omega

theorem Reg.toNat_low (x : Reg) : x.low.toNat = x.value.toNat % 256 := by
  rw [Reg.low, BitVec.extractLsb'_toNat, Nat.shiftRight_zero]

/-! ### The instructions -/

theorem exec_lui (rd : RegId) (b : Byte) (s : State) :
    exec (.lui rd b) s = .next (s.writeHigh rd b).advance := rfl

theorem exec_lli (rd : RegId) (b : Byte) (s : State) :
    exec (.lli rd b) s = .next (s.writeLow rd b).advance := rfl

/-! ### The statements -/

/-- Settles O49: LUI writes `imm8` joined to the low byte, whose number is the remainder by 256. -/
theorem luiReplacesHighByte : Obligations.LuiReplacesHighByte := by
  unfold Obligations.LuiReplacesHighByte
  intro s rd b
  refine ⟨_, _, exec_lui rd b s, setReg_advance_writesOnly s rd _, ?_, rfl, rfl⟩
  rw [toNat_byte_append, Reg.toNat_low]

/-- Settles O50: LLI writes the high byte, whose number is the quotient by 256, joined to `imm8`. -/
theorem lliReplacesLowByte : Obligations.LliReplacesLowByte := by
  unfold Obligations.LliReplacesLowByte
  intro s rd b
  refine ⟨_, _, exec_lli rd b s, setReg_advance_writesOnly s rd _, ?_, rfl, rfl⟩
  rw [toNat_byte_append, Reg.toNat_high]

end Sys2Proof.Machine

/-! The decoder and the encoder (spec/30_encoding.md sections 5, 7 and 8): the fields of a word as
numbers, the one case split of `decode`, and `encode` after `decode` as a mask. -/

namespace Sys2Proof

/-! ### The fields of a word as numbers -/

theorem toNat_opField (w : Word) : (opField w).toNat = w.toNat / 4096 := by
  have hw : w.toNat < 65536 := w.isLt
  rw [opField, BitVec.extractLsb'_toNat, Nat.shiftRight_eq_div_pow]
  omega

theorem toNat_fieldA (w : Word) : (fieldA w).toNat = w.toNat / 512 % 8 := by
  rw [fieldA, BitVec.extractLsb'_toNat, Nat.shiftRight_eq_div_pow]

theorem toNat_fieldB (w : Word) : (fieldB w).toNat = w.toNat / 64 % 8 := by
  rw [fieldB, BitVec.extractLsb'_toNat, Nat.shiftRight_eq_div_pow]

theorem toNat_fieldC (w : Word) : (fieldC w).toNat = w.toNat / 8 % 8 := by
  rw [fieldC, BitVec.extractLsb'_toNat, Nat.shiftRight_eq_div_pow]

theorem toNat_offset6Field (w : Word) : (offset6Field w).toNat = w.toNat % 64 := by
  rw [offset6Field, BitVec.extractLsb'_toNat, Nat.shiftRight_zero]

theorem toNat_imm8Field (w : Word) : (imm8Field w).toNat = w.toNat % 256 := by
  rw [imm8Field, BitVec.extractLsb'_toNat, Nat.shiftRight_zero]

theorem toNat_imm12Field (w : Word) : (imm12Field w).toNat = w.toNat % 4096 := by
  rw [imm12Field, BitVec.extractLsb'_toNat, Nat.shiftRight_zero]

theorem opField_eq_of_div {w : Word} {n : Nat} (h : w.toNat / 4096 = n) :
    opField w = BitVec.ofNat 4 n := by
  rw [← h, ← toNat_opField, BitVec.ofNat_toNat, BitVec.setWidth_eq]

/-! ### The case split of the decoder -/

/-- The rows of the decoder's table (R74): what a word with a given opcode stands for. A proof about
the decoded word splits on `decodes`. -/
inductive Decodes (w : Word) : Instr → Prop where
  | ld (op : opField w = 0) : Decodes w (.ld (fieldB w) (fieldA w) (offset6Field w))
  | st (op : opField w = 1) : Decodes w (.st (fieldB w) (fieldA w) (offset6Field w))
  | add (op : opField w = 2) : Decodes w (.add (fieldC w) (fieldA w) (fieldB w))
  | sub (op : opField w = 3) : Decodes w (.sub (fieldC w) (fieldA w) (fieldB w))
  | inv (op : opField w = 4) : Decodes w (.inv (fieldC w) (fieldA w))
  | lsl (op : opField w = 5) : Decodes w (.lsl (fieldC w) (fieldA w) (fieldB w))
  | lsr (op : opField w = 6) : Decodes w (.lsr (fieldC w) (fieldA w) (fieldB w))
  | and (op : opField w = 7) : Decodes w (.and (fieldC w) (fieldA w) (fieldB w))
  | or (op : opField w = 8) : Decodes w (.or (fieldC w) (fieldA w) (fieldB w))
  | slt (op : opField w = 9) : Decodes w (.slt (fieldC w) (fieldA w) (fieldB w))
  | illegal (op : opField w = 10) : Decodes w (.illegal w)
  | beq (op : opField w = 11) : Decodes w (.beq (fieldA w) (fieldB w) (offset6Field w))
  | bne (op : opField w = 12) : Decodes w (.bne (fieldA w) (fieldB w) (offset6Field w))
  | jmp (op : opField w = 13) : Decodes w (.jmp (imm12Field w))
  | lui (op : opField w = 14) : Decodes w (.lui (fieldA w) (imm8Field w))
  | lli (op : opField w = 15) : Decodes w (.lli (fieldA w) (imm8Field w))

theorem decodes (w : Word) : Decodes w (decode w) := by
  rcases opField_cases w with h | h | h | h | h | h | h | h | h | h | h | h | h | h | h | h <;>
    simp only [decode, h] <;> constructor <;> exact h

theorem Decodes.opcode_eq {w : Word} {i : Instr} (h : Decodes w i) : i.opcode = opField w := by
  cases h <;> exact Eq.symm ‹opField w = _›

theorem Decodes.wellFormed {w : Word} {i : Instr} (h : Decodes w i) : i.wellFormed = true := by
  cases h with
  | illegal op => exact beq_iff_eq.2 op
  | _ => rfl

theorem opcode_decode (w : Word) : (decode w).opcode = opField w := (decodes w).opcode_eq

theorem wellFormed_decode (w : Word) : (decode w).wellFormed = true := (decodes w).wellFormed

theorem decode_of_opField_ten {w : Word} (h : opField w = 10) : decode w = .illegal w := by
  rw [decode, h]; rfl

theorem mnemonicOf_eq_map (i : Instr) : some (Machine.mnemonicOf i) =
    ["LD", "ST", "ADD", "SUB", "INV", "LSL", "LSR", "AND", "OR", "SLT", "ILLEGAL", "BEQ", "BNE",
      "JMP", "LUI", "LLI"][i.opcode.toNat]? := by
  cases i <;> rfl

/-! ### The words of the three layouts as numbers -/

theorem toNat_append_eq {n m : Nat} (x : BitVec n) (y : BitVec m) :
    (x ++ y).toNat = x.toNat * 2 ^ m + y.toNat := by
  rw [BitVec.toNat_append, ← Nat.shiftLeft_add_eq_or_of_lt y.isLt, Nat.shiftLeft_eq]

theorem toNat_encodeOffset (op : BitVec 4) (a b : RegId) (o : BitVec 6) :
    (encodeOffset op a b o).toNat = op.toNat * 4096 + a.toNat * 512 + b.toNat * 64 + o.toNat := by
  simp only [encodeOffset, toNat_append_eq]
  omega

theorem toNat_encodeData (op : BitVec 4) (a b c : RegId) :
    (encodeData op a b c).toNat = op.toNat * 4096 + a.toNat * 512 + b.toNat * 64 + c.toNat * 8 := by
  simp only [encodeData, toNat_append_eq, BitVec.toNat_ofNat]
  omega

theorem toNat_encodeImm (op : BitVec 4) (a : RegId) (b : Byte) :
    (encodeImm op a b).toNat = op.toNat * 4096 + a.toNat * 512 + b.toNat := by
  simp only [encodeImm, toNat_append_eq, BitVec.toNat_ofNat]
  omega

/-! ### Encoding what was decoded -/

theorem and_not_eq_self_iff {n : Nat} (x m : BitVec n) : x &&& ~~~m = x ↔ x &&& m = 0#n := by
  simp only [BitVec.eq_of_getLsbD_eq_iff, BitVec.getLsbD_and, BitVec.getLsbD_not,
    BitVec.getLsbD_zero]
  refine forall₂_congr fun i hi => ?_
  cases x.getLsbD i <;> cases m.getLsbD i <;> simp [hi]

theorem encodeOffset_fields (w : Word) :
    encodeOffset (opField w) (fieldA w) (fieldB w) (offset6Field w) = w := by
  apply BitVec.eq_of_toNat_eq
  rw [toNat_encodeOffset, toNat_opField, toNat_fieldA, toNat_fieldB, toNat_offset6Field]
  omega

theorem encodeData_fields (w : Word) :
    encodeData (opField w) (fieldA w) (fieldB w) (fieldC w) = w &&& ~~~0x0007 := by
  apply BitVec.eq_of_getLsbD_eq
  intro i hi
  simp only [encodeData, opField, fieldA, fieldB, fieldC, BitVec.getLsbD_append,
    BitVec.getLsbD_extractLsb', BitVec.getLsbD_and]
  interval_cases i <;> simp

theorem encodeData_fields_inv (w : Word) :
    encodeData (opField w) (fieldA w) 0 (fieldC w) = w &&& ~~~0x01C7 := by
  apply BitVec.eq_of_getLsbD_eq
  intro i hi
  simp only [encodeData, opField, fieldA, fieldC, BitVec.getLsbD_append,
    BitVec.getLsbD_extractLsb', BitVec.getLsbD_and]
  interval_cases i <;> simp

theorem encodeImm_fields (w : Word) :
    encodeImm (opField w) (fieldA w) (imm8Field w) = w &&& ~~~0x0100 := by
  apply BitVec.eq_of_getLsbD_eq
  intro i hi
  simp only [encodeImm, opField, fieldA, imm8Field, BitVec.getLsbD_append,
    BitVec.getLsbD_extractLsb', BitVec.getLsbD_and]
  interval_cases i <;> simp

theorem encode_jmp_field {w : Word} (op : opField w = 13) : encode (.jmp (imm12Field w)) = w := by
  apply BitVec.eq_of_toNat_eq
  have hop : w.toNat / 4096 = 13 := by rw [← toNat_opField, op]; rfl
  rw [encode, toNat_append_eq, toNat_imm12Field, BitVec.toNat_ofNat]
  omega

theorem and_not_zero (w : Word) : w &&& ~~~0 = w :=
  (and_not_eq_self_iff w 0).2 BitVec.and_zero

/-- Encoding what a word stands for clears its ignored bits (R75). -/
theorem Decodes.encode_eq {w : Word} {i : Instr} (h : Decodes w i) :
    encode i = w &&& ~~~ignoredBits w := by
  cases h with
  | ld op | st op | beq op | bne op =>
    rw [encode, ← op, encodeOffset_fields, ignoredBits, op]; exact (and_not_zero w).symm
  | jmp op =>
    rw [encode_jmp_field op, ignoredBits, op]; exact (and_not_zero w).symm
  | illegal op => rw [encode, ignoredBits, op]; exact (and_not_zero w).symm
  | add op | sub op | lsl op | lsr op | and op | or op | slt op =>
    rw [encode, ← op, encodeData_fields, ignoredBits, op]; rfl
  | inv op => rw [encode, ← op, encodeData_fields_inv, ignoredBits, op]; rfl
  | lui op | lli op => rw [encode, ← op, encodeImm_fields, ignoredBits, op]; rfl

theorem encode_decode (w : Word) : encode (decode w) = w &&& ~~~ignoredBits w :=
  (decodes w).encode_eq

/-- The round trip from a word is the identity on canonical words only. -/
theorem encode_decode_eq_self_iff (w : Word) : encode (decode w) = w ↔ isCanonical w = true := by
  rw [encode_decode, and_not_eq_self_iff, isCanonical, beq_iff_eq]; rfl

theorem opField_encode {i : Instr} (h : i.wellFormed = true) : opField (encode i) = i.opcode := by
  cases i with
  | illegal word => exact Laws.EncodedOpcode.illegal word h
  | _ => simp [encode, Instr.opcode]

theorem decode_encode {i : Instr} (h : i.wellFormed = true) : decode (encode i) = i := by
  have hop := opField_encode h
  cases i <;> simp only [decode, hop, Instr.opcode] <;> simp [encode]

theorem isCanonical_encode {i : Instr} (h : i.wellFormed = true) :
    isCanonical (encode i) = true := by
  rw [← encode_decode_eq_self_iff, decode_encode h]

/-- Clearing the ignored bits leaves the decoded term: it is the round trip of that term. -/
theorem decode_and_not_ignoredBits (w : Word) : decode (w &&& ~~~ignoredBits w) = decode w := by
  rw [← encode_decode, decode_encode (wellFormed_decode w)]

/-! ### The ignored bits -/

theorem opField_ignoredBits (w : Word) : opField (ignoredBits w) = 0 := by
  unfold ignoredBits
  generalize opField w = op
  revert op; decide

theorem ignoredBits_of_opField_eq {w v : Word} (h : opField v = opField w) :
    ignoredBits v = ignoredBits w := by
  rw [ignoredBits, h, ignoredBits]

/-- Bits 2:0 are ignored in every word of data processing (R68). -/
theorem seven_and_ignoredBits {w : Word} (h2 : 2 ≤ (opField w).toNat) (h9 : (opField w).toNat ≤ 9) :
    0x0007 &&& ignoredBits w = 0x0007 := by
  unfold ignoredBits
  generalize opField w = op at *
  revert op; decide

/-- A flip within the ignored bits keeps the opcode, so the same bits are ignored after it. -/
theorem opField_xor_of_ignored {w x : Word} (hx : x &&& ignoredBits w = x) :
    opField (w ^^^ x) = opField w := by
  have hop : opField x = 0 := by
    rw [← hx, opField, BitVec.extractLsb'_and]
    exact (congrArg _ (opField_ignoredBits w)).trans BitVec.and_zero
  rw [opField, BitVec.extractLsb'_xor]
  exact (congrArg _ hop).trans BitVec.xor_zero

theorem xor_and_not_of_and_eq_self {n : Nat} {w x m : BitVec n} (hx : x &&& m = x) :
    (w ^^^ x) &&& ~~~m = w &&& ~~~m := by
  simp only [BitVec.eq_of_getLsbD_eq_iff, BitVec.getLsbD_and, BitVec.getLsbD_not,
    BitVec.getLsbD_xor] at hx ⊢
  intro i hi
  specialize hx i hi
  cases hxi : x.getLsbD i with
  | false => rw [Bool.xor_false]
  | true =>
    rw [hxi, Bool.true_and] at hx
    simp [hx]

theorem decode_xor_of_ignored {w x : Word} (hx : x &&& ignoredBits w = x) :
    decode (w ^^^ x) = decode w := by
  rw [← decode_and_not_ignoredBits, ignoredBits_of_opField_eq (opField_xor_of_ignored hx),
    xor_and_not_of_and_eq_self hx, decode_and_not_ignoredBits]

/-! ### The statements -/

/-- Settles O1: the two round trips are `decode_encode` and `encode_decode_eq_self_iff`, and the
formulas are the numbers of the three layouts and of the jump's. -/
theorem encodeFollowsFormulaAndInvertsDecode :
    Obligations.EncodeFollowsFormulaAndInvertsDecode := by
  unfold Obligations.EncodeFollowsFormulaAndInvertsDecode
  refine ⟨fun _ => decode_encode, encode_decode_eq_self_iff,
    fun _ _ _ => toNat_encodeOffset .., fun _ _ _ => toNat_encodeOffset .., ?data, ?inv,
    fun _ _ _ => toNat_encodeOffset .., fun _ _ _ => toNat_encodeOffset ..,
    fun _ => toNat_append_eq .., fun _ _ => toNat_encodeImm .., fun _ _ => toNat_encodeImm ..⟩
  case data =>
    simp only [List.forall_mem_cons, List.not_mem_nil, false_imp_iff, implies_true, and_true]
    exact ⟨fun _ _ _ => toNat_encodeData .., fun _ _ _ => toNat_encodeData ..,
      fun _ _ _ => toNat_encodeData .., fun _ _ _ => toNat_encodeData ..,
      fun _ _ _ => toNat_encodeData .., fun _ _ _ => toNat_encodeData ..,
      fun _ _ _ => toNat_encodeData ..⟩
  case inv => exact fun _ _ => toNat_encodeData ..

/-- Settles O2: the fields are those of the word, and the opcode picks the line of the decoder. -/
theorem decodeReadsFieldsByOpcode : Obligations.DecodeReadsFieldsByOpcode := by
  unfold Obligations.DecodeReadsFieldsByOpcode
  intro w a b c o6 i8 i12 ha hb hc ho hi hj
  obtain rfl : a = fieldA w := BitVec.eq_of_toNat_eq (ha.trans (toNat_fieldA w).symm)
  obtain rfl : b = fieldB w := BitVec.eq_of_toNat_eq (hb.trans (toNat_fieldB w).symm)
  obtain rfl : c = fieldC w := BitVec.eq_of_toNat_eq (hc.trans (toNat_fieldC w).symm)
  obtain rfl : o6 = offset6Field w := BitVec.eq_of_toNat_eq (ho.trans (toNat_offset6Field w).symm)
  obtain rfl : i8 = imm8Field w := BitVec.eq_of_toNat_eq (hi.trans (toNat_imm8Field w).symm)
  obtain rfl : i12 = imm12Field w := BitVec.eq_of_toNat_eq (hj.trans (toNat_imm12Field w).symm)
  refine ⟨?_, ?_, ?_, ?_, ?_, ?_, ?_, ?_, ?_, ?_, ?_, ?_, ?_, ?_, ?_, ?_⟩ <;>
    intro hop <;> rw [decode, opField_eq_of_div hop] <;> rfl

/-- Settles O3: bits within `ignoredBits` do not reach the decoded term, and the mask of each clause
lies within it. -/
theorem ignoredBitsChangeNothing : Obligations.IgnoredBitsChangeNothing := by
  unfold Obligations.IgnoredBitsChangeNothing
  refine ⟨fun w x h2 h9 hx => ?_, fun w x op hx => ?_, fun w x op hx => ?_,
    fun _ => isCanonical_encode⟩
  · refine decode_xor_of_ignored ?_
    rw [← hx, BitVec.and_assoc, seven_and_ignoredBits h2 h9]
  · refine decode_xor_of_ignored ?_
    rw [ignoredBits, op]; exact hx
  · refine decode_xor_of_ignored ?_
    rcases op with op | op <;> rw [ignoredBits, op] <;> exact hx

/-- Settles O4. -/
theorem decodedWordsAreWellFormed : Obligations.DecodedWordsAreWellFormed :=
  fun w => ⟨wellFormed_decode w, opcode_decode w⟩

/-- Settles O5: the mnemonic is the map's entry at the term's opcode, which is the word's. -/
theorem opcodeAloneSelectsInstruction : Obligations.OpcodeAloneSelectsInstruction := by
  unfold Obligations.OpcodeAloneSelectsInstruction
  intro w
  rw [mnemonicOf_eq_map, opcode_decode, toNat_opField]

/-- Settles O6: an illegal term has opcode 10, and a word with opcode 10 decodes to itself. -/
theorem illegalExactlyAtOpcodeTen : Obligations.IllegalExactlyAtOpcodeTen := by
  unfold Obligations.IllegalExactlyAtOpcodeTen
  intro w x
  constructor
  · intro h
    have hop : opField w = 10 := by rw [← opcode_decode, h]; rfl
    rw [decode_of_opField_ten hop] at h
    exact ⟨by rw [← toNat_opField, hop]; rfl, (Instr.illegal.inj h).symm⟩
  · rintro ⟨h, rfl⟩
    exact decode_of_opField_ten (opField_eq_of_div h)

/-- Settles O7, each word by evaluating the decoder. -/
theorem listedWordsDecode : Obligations.ListedWordsDecode := by
  unfold Obligations.ListedWordsDecode
  decide

end Sys2Proof

/-! What one instruction does, said once: the effect it asks for, which depends on its operands only,
and what each effect changes and leaves. `exec_eq_answer` ties the two to `exec`. -/

namespace Sys2Proof.Machine

/-! ### Effects -/

/-- What an instruction that answers a next state does to it. All but `goto` also advance the pc. -/
inductive Effect where
  | write (rd : RegId) (v : Word)
  | writeHigh (rd : RegId) (b : Byte)
  | writeLow (rd : RegId) (b : Byte)
  | store (a v : Word)
  | goto (p : Word)

/-- The next state. -/
def Effect.apply : Effect → State → State
  | .write rd v, s => (s.writeReg rd v).advance
  | .writeHigh rd b, s => (s.writeHigh rd b).advance
  | .writeLow rd b, s => (s.writeLow rd b).advance
  | .store a v, s => (s.setCell a v).advance
  | .goto p, s => s.jumpTo p

/-- An effect that needs the data cell at `a` to exist (D17). -/
def onData (s : State) (a : Word) (e : Effect) : Except Fault Effect :=
  if s.dataValid a then .ok e else .error (.stuckData s.pc a)

/-- The effect of each instruction, or why it has none. -/
def effectOf (s : State) : Instr → Except Fault Effect
  | .ld rd rs1 o =>
    onData s (effAddr (s.reg rs1).value o) (.write rd (s.cell (effAddr (s.reg rs1).value o)))
  | .st rs2 rs1 o =>
    onData s (effAddr (s.reg rs1).value o) (.store (effAddr (s.reg rs1).value o) (s.reg rs2).value)
  | .add rd rs1 rs2 => .ok (.write rd (addResult (s.reg rs1).value (s.reg rs2).value))
  | .sub rd rs1 rs2 => .ok (.write rd (subResult (s.reg rs1).value (s.reg rs2).value))
  | .inv rd rs1 => .ok (.write rd (invResult (s.reg rs1).value))
  | .lsl rd rs1 rs2 =>
    .ok (.write rd (lslResult s.params.shiftAmount (s.reg rs1).value (s.reg rs2).value))
  | .lsr rd rs1 rs2 =>
    .ok (.write rd (lsrResult s.params.shiftAmount (s.reg rs1).value (s.reg rs2).value))
  | .and rd rs1 rs2 => .ok (.write rd (andResult (s.reg rs1).value (s.reg rs2).value))
  | .or rd rs1 rs2 => .ok (.write rd (orResult (s.reg rs1).value (s.reg rs2).value))
  | .slt rd rs1 rs2 =>
    .ok (.write rd (sltResult s.params.sltSigned (s.reg rs1).value (s.reg rs2).value))
  | .illegal w => .error (.illegalOpcode s.pc w)
  | .beq rs1 rs2 o => .ok (.goto (if operandsEqual (s.reg rs1).value (s.reg rs2).value
      then branchTarget s.pc o else s.pc + 4))
  | .bne rs1 rs2 o => .ok (.goto (if !operandsEqual (s.reg rs1).value (s.reg rs2).value
      then branchTarget s.pc o else s.pc + 4))
  | .jmp imm => .ok (.goto (jumpTarget imm))
  | .lui rd b => .ok (.writeHigh rd b)
  | .lli rd b => .ok (.writeLow rd b)

/-- The answer an effect gives at a state. -/
def answer (s : State) : Except Fault Effect → Result
  | .ok e => .next (e.apply s)
  | .error f => .fault f

theorem onData_valid {s : State} {a : Word} (h : s.dataValid a = true) (e : Effect) :
    onData s a e = .ok e := if_pos h

theorem onData_absent {s : State} {a : Word} (h : s.dataValid a = false) (e : Effect) :
    onData s a e = .error (.stuckData s.pc a) := by simp [onData, h]

/-- The meaning of every instruction is its effect. -/
theorem exec_eq_answer (i : Instr) (s : State) : exec i s = answer s (effectOf s i) := by
  cases i with
  | ld rd rs1 o | st rs2 rs1 o =>
    simp only [exec, execLd, execSt, withCell, withStore, effectOf, onData]
    split <;> rfl
  | beq rs1 rs2 o | bne rs1 rs2 o =>
    simp only [exec, execBeq, execBne, branchIf, effectOf]
    split <;> rfl
  | _ => rfl

theorem exec_eq_next_iff {i : Instr} {s t : State} :
    exec i s = .next t ↔ ∃ e, effectOf s i = .ok e ∧ t = e.apply s := by
  rw [exec_eq_answer]
  cases effectOf s i with
  | error f => exact ⟨nofun, nofun⟩
  | ok e =>
    constructor
    · rintro ⟨⟩; exact ⟨e, rfl, rfl⟩
    · rintro ⟨_, ⟨⟩, rfl⟩; rfl

theorem exec_eq_fault_iff {i : Instr} {s : State} {f : Fault} :
    exec i s = .fault f ↔ effectOf s i = .error f := by
  rw [exec_eq_answer]
  cases effectOf s i <;> simp [answer]

theorem exec_ne_refused (i : Instr) (s : State) (r : Refusal) : exec i s ≠ .refused r := by
  rw [exec_eq_answer]
  cases effectOf s i <;> simp [answer]

/-! ### When there is an effect -/

theorem effectOf_of_dataAddress {s : State} {i : Instr} {a : Word}
    (ha : dataAddress s i = some a) : ∃ e, effectOf s i = onData s a e := by
  cases i <;> cases ha <;> exact ⟨_, rfl⟩

/-- An instruction stops at an absent data address, or because it is none. -/
theorem effectOf_eq_error {s : State} {i : Instr} {f : Fault} (h : effectOf s i = .error f) :
    (∃ w, i = .illegal w ∧ f = .illegalOpcode s.pc w) ∨
    ∃ a, dataAddress s i = some a ∧ s.dataValid a = false ∧ f = .stuckData s.pc a := by
  cases hd : dataAddress s i with
  | some a =>
    obtain ⟨e, he⟩ := effectOf_of_dataAddress hd
    rw [he] at h
    cases hv : s.dataValid a with
    | true => rw [onData_valid hv] at h; cases h
    | false => rw [onData_absent hv] at h; cases h; exact .inr ⟨a, rfl, hv, rfl⟩
  | none =>
    cases i <;> cases hd <;> cases h
    exact .inl ⟨_, rfl, rfl⟩

/-- Each of the 15 instructions completes where its data address, if it has one, exists. -/
theorem exec_completes {i : Instr} {s : State} (hi : ∀ w, i ≠ .illegal w)
    (hv : ∀ a, dataAddress s i = some a → s.dataValid a = true) : ∃ t, exec i s = .next t := by
  cases he : effectOf s i with
  | ok e => exact ⟨_, exec_eq_next_iff.2 ⟨e, he, rfl⟩⟩
  | error f =>
    obtain ⟨w, rfl, -⟩ | ⟨a, ha, hna, -⟩ := effectOf_eq_error he
    · exact absurd rfl (hi w)
    · rw [hv a ha] at hna; cases hna

theorem exec_of_absent {i : Instr} {s : State} {a : Word} (ha : dataAddress s i = some a)
    (hv : s.dataValid a = false) : exec i s = .fault (.stuckData s.pc a) := by
  obtain ⟨e, he⟩ := effectOf_of_dataAddress ha
  exact exec_eq_fault_iff.2 (he.trans (onData_absent hv e))

theorem dataValid_congr {s u : State} (hp : s.params = u.params) (a : Word) :
    s.dataValid a = u.dataValid a := by rw [State.dataValid, State.dataValid, hp]

theorem onData_congr {s u : State} (hpc : s.pc = u.pc) (hp : s.params = u.params) (a : Word)
    (e : Effect) : onData s a e = onData u a e := by
  rw [onData, onData, dataValid_congr hp, hpc]

theorem cell_congr {s u : State} (hd : s.dmem = u.dmem) (a : Word) : s.cell a = u.cell a := by
  rw [State.cell, State.cell, hd]

/-- The effect is made from the values of the operands, the pc, the data memory and the parameters
(R34). -/
theorem effectOf_congr {i : Instr} {s u : State} (hpc : s.pc = u.pc) (hd : s.dmem = u.dmem)
    (hp : s.params = u.params) (hr : ∀ r ∈ i.operands, (s.reg r).value = (u.reg r).value) :
    effectOf s i = effectOf u i := by
  cases i with
  | ld rd rs1 o =>
    rw [effectOf, effectOf, hr rs1 List.mem_cons_self, onData_congr hpc hp, cell_congr hd]
  | st rs2 rs1 o =>
    have h2 : rs2 ∈ [rs1, rs2] := List.mem_cons_of_mem _ List.mem_cons_self
    rw [effectOf, effectOf, hr rs1 List.mem_cons_self, hr rs2 h2, onData_congr hpc hp]
  | inv rd rs1 => rw [effectOf, effectOf, hr rs1 List.mem_cons_self]
  | illegal w => rw [effectOf, effectOf, hpc]
  | jmp imm | lui rd b | lli rd b => rfl
  | add rd rs1 rs2 | sub rd rs1 rs2 | lsl rd rs1 rs2 | lsr rd rs1 rs2 | and rd rs1 rs2
  | or rd rs1 rs2 | slt rd rs1 rs2 | beq rs1 rs2 o | bne rs1 rs2 o =>
    have h2 : rs2 ∈ [rs1, rs2] := List.mem_cons_of_mem _ List.mem_cons_self
    simp only [effectOf, hr rs1 List.mem_cons_self, hr rs2 h2, hpc, hp]

end Sys2Proof.Machine

/-! What every instruction and every step keep: the program, the parameters, the invariant, the
marks, and the registers and cells an instruction does not name. -/

namespace Sys2Proof.Machine

/-! ### The step -/

theorem step_eq_next_iff {s t : State} :
    step s = .next t ↔ ∃ w, s.fetch = some w ∧ exec (decode w) s = .next t := by
  cases hw : s.fetch with
  | none => simp [step_of_no_fetch hw]
  | some w => simp [step_of_fetch hw]

/-- The machine's own step stops for its three named reasons only. -/
theorem step_eq_fault {s : State} {f : Fault} (h : step s = .fault f) :
    f = .stuckFetch s.pc ∨ (∃ w, f = .illegalOpcode s.pc w) ∨
      ∃ a, f = .stuckData s.pc a ∧ s.dataValid a = false := by
  cases hw : s.fetch with
  | none => rw [step_of_no_fetch hw] at h; cases h; exact .inl rfl
  | some w =>
    rw [step_of_fetch hw, exec_eq_fault_iff] at h
    obtain ⟨x, -, hf⟩ | ⟨a, -, hv, hf⟩ := effectOf_eq_error h
    · exact .inr (.inl ⟨x, hf⟩)
    · exact .inr (.inr ⟨a, hf, hv⟩)

/-- Settles O13. -/
theorem stepRunsDecodedInstruction : Obligations.StepRunsDecodedInstruction :=
  fun _ _ => step_of_fetch

theorem fetch_withFetchWord (s : State) (w : Word) :
    (s.withFetchWord 16 w.toNat).fetch = some w := by
  have hw : BitVec.ofNat 16 (w.toNat % 2 ^ 16) = w := by
    rw [Nat.mod_eq_of_lt w.isLt, BitVec.ofNat_toNat, BitVec.setWidth_eq]
  rw [State.fetch, State.withFetchWord, hw, Memory.read_write_same]

/-- Settles O14: the placed word is fetched. -/
theorem placedWordRunsNext : Obligations.PlacedWordRunsNext :=
  fun s w => step_of_fetch (fetch_withFetchWord s w)

/-- Settles O16: neither fetch nor any instruction refuses. -/
theorem noStepIsRefused : Obligations.NoStepIsRefused := by
  unfold Obligations.NoStepIsRefused
  intro s r
  cases hw : s.fetch with
  | none => rw [step_of_no_fetch hw]; exact nofun
  | some w => rw [step_of_fetch hw]; exact exec_ne_refused _ s r

theorem exec_illegal (w : Word) (s : State) :
    exec (.illegal w) s = .fault (.illegalOpcode s.pc w) := rfl

/-- Settles O17: a word with opcode 10 decodes to ILLEGAL. -/
theorem opcodeTenIsIllegalOpcode : Obligations.OpcodeTenIsIllegalOpcode := by
  unfold Obligations.OpcodeTenIsIllegalOpcode
  refine ⟨fun s w => exec_illegal w s, fun s w hw hop => ?_⟩
  rw [step_of_fetch hw, decode_of_opField_ten hop, exec_illegal]

/-- Settles O27: the data address of both instructions is the effective address. The readable
operands are not used (log entry 2). -/
theorem absentDataAddressIsStuck : Obligations.AbsentDataAddressIsStuck := by
  unfold Obligations.AbsentDataAddressIsStuck
  intro s r rs1 o _ hv
  exact ⟨exec_of_absent rfl hv, fun _ => exec_of_absent rfl hv⟩

/-! ### The program, the parameters, data memory and the registers -/

theorem exec_params {i : Instr} {s t : State} (h : exec i s = .next t) : t.params = s.params := by
  obtain ⟨e, -, rfl⟩ := exec_eq_next_iff.1 h
  cases e <;> rfl

theorem exec_imem {i : Instr} {s t : State} (h : exec i s = .next t) : t.imem = s.imem := by
  obtain ⟨e, -, rfl⟩ := exec_eq_next_iff.1 h
  cases e <;> rfl

theorem fetch_jumpTo (s : State) (p : Word) :
    (s.jumpTo p).fetch = Memory.read s.imem p.toNat := rfl

/-- Settles O12: fetch looks at the instruction store only. -/
theorem programAndParametersNeverChange : Obligations.ProgramAndParametersNeverChange := by
  unfold Obligations.ProgramAndParametersNeverChange
  intro i s t h
  exact ⟨exec_params h, exec_imem h, fun p => by rw [fetch_jumpTo, fetch_jumpTo, exec_imem h]⟩

theorem exec_st_eq_next {rs2 rs1 : RegId} {o : BitVec 6} {s t : State}
    (h : exec (.st rs2 rs1 o) s = .next t) :
    s.dataValid (effAddr (s.reg rs1).value o) = true ∧
      t = (s.setCell (effAddr (s.reg rs1).value o) (s.reg rs2).value).advance := by
  rw [exec, execSt] at h
  obtain ⟨hv, ht⟩ := withStore_eq_next.1 h
  cases ht
  exact ⟨hv, rfl⟩

theorem exec_dmem_of_not_store {i : Instr} {s t : State} (hi : isStore i = false)
    (h : exec i s = .next t) : t.dmem = s.dmem := by
  obtain ⟨rd, x, -, rfl, -⟩ | ⟨_, _, _, rfl, -⟩ |
    ⟨-, rfl | ⟨_, _, _, -, rfl⟩ | ⟨_, -, rfl⟩⟩ := exec_next_cases h
  · rfl
  · cases hi
  all_goals rfl

/-- Settles O54: only the store writes, at its effective address. -/
theorem onlyStoresChangeData : Obligations.OnlyStoresChangeData := by
  unfold Obligations.OnlyStoresChangeData
  intro i s t h b
  refine ⟨fun hi a ha hb => ?_, fun hi => by rw [exec_dmem_of_not_store hi h]⟩
  cases i <;> cases hi
  cases ha
  obtain ⟨-, rfl⟩ := exec_st_eq_next h
  exact Memory.read_write_other _ _ hb

/-- Settles O52: the written register is the one `dest` names. -/
theorem onlyTheNamedRegisterIsWritten : Obligations.OnlyTheNamedRegisterIsWritten := by
  unfold Obligations.OnlyTheNamedRegisterIsWritten
  intro i s t h r hr
  obtain ⟨rd, x, hd, rfl, -⟩ | ⟨_, _, _, -, rfl⟩ |
    ⟨-, rfl | ⟨_, _, _, -, rfl⟩ | ⟨_, -, rfl⟩⟩ := exec_next_cases h
  · exact State.reg_setReg_other s x fun hrd => hr (hrd ▸ hd)
  all_goals rfl

/-! ### The program counter -/

theorem add_four_mod_four {pc : Word} (h : pc.toNat % 4 = 0) : (pc + 4).toNat % 4 = 0 := by
  rw [BitVec.toNat_add, show (4 : Word).toNat = 4 from rfl]; omega

theorem mul_four_mod_four (x : Word) : (x * 4).toNat % 4 = 0 := by
  rw [BitVec.toNat_mul, show (4 : Word).toNat = 4 from rfl]; omega

theorem branchTarget_mod_four {pc : Word} (h : pc.toNat % 4 = 0) (o : BitVec 6) :
    (branchTarget pc o).toNat % 4 = 0 := by
  have h4 := add_four_mod_four h
  have ho := mul_four_mod_four (o.signExtend 16)
  rw [branchTarget, BitVec.toNat_add]; omega

theorem toNat_jumpTarget (imm : BitVec 12) : (jumpTarget imm).toNat = imm.toNat * 4 := by
  have := imm.isLt
  rw [jumpTarget, BitVec.toNat_mul, BitVec.toNat_setWidth, show (4 : Word).toNat = 4 from rfl]
  omega

theorem jumpTarget_mod_four (imm : BitVec 12) : (jumpTarget imm).toNat % 4 = 0 := by
  rw [toNat_jumpTarget, Nat.mul_mod_left]

theorem exec_pc_mod_four {i : Instr} {s t : State} (hpc : s.pc.toNat % 4 = 0)
    (h : exec i s = .next t) : t.pc.toNat % 4 = 0 := by
  obtain ⟨_, _, -, rfl, -⟩ | ⟨_, _, _, -, rfl⟩ |
    ⟨-, rfl | ⟨_, _, o, -, rfl⟩ | ⟨imm, -, rfl⟩⟩ := exec_next_cases h
  · exact add_four_mod_four hpc
  · exact add_four_mod_four hpc
  · exact add_four_mod_four hpc
  · exact branchTarget_mod_four hpc o
  · exact jumpTarget_mod_four imm

/-- Settles O11. -/
theorem pcStaysMultipleOfFour : Obligations.PcStaysMultipleOfFour :=
  ⟨rfl, fun _ _ _ => exec_pc_mod_four⟩

/-! ### The invariant -/

theorem exec_dmem_wf {i : Instr} {s t : State} (hd : Memory.wf s.dmem)
    (h : exec i s = .next t) : Memory.wf t.dmem := by
  cases hi : isStore i with
  | false => rwa [exec_dmem_of_not_store hi h]
  | true =>
    cases i <;> cases hi
    obtain ⟨-, rfl⟩ := exec_st_eq_next h
    exact State.setCell_dmem_wf _ _ hd

/-- Settles O10: every instruction keeps each of the three parts. -/
theorem stepKeepsInvariant : Obligations.StepKeepsInvariant := by
  unfold Obligations.StepKeepsInvariant
  intro s t ⟨hpc, hd, hi⟩ hs
  obtain ⟨w, -, h⟩ := step_eq_next_iff.1 hs
  exact ⟨exec_pc_mod_four hpc h, exec_dmem_wf hd h, by rwa [exec_imem h]⟩

/-- Settles O9: the pc is 0 and both stores are empty. -/
theorem resetMeetsInvariant : Obligations.ResetMeetsInvariant :=
  ⟨rfl, ⟨List.Pairwise.nil, nofun⟩, ⟨List.Pairwise.nil, nofun⟩, nofun⟩

/-! ### What is defined stays defined -/

theorem Memory.read_write_ne_none {m : Memory} {b : Nat} (h : Memory.read m b ≠ none) (a : Nat)
    (v : Word) : Memory.read (Memory.write m a v) b ≠ none := by
  by_cases hab : b = a
  · subst hab; rw [Memory.read_write_same]; exact nofun
  · rwa [Memory.read_write_other m v hab]

/-- A mark of a register, kept where one register is replaced by one that keeps it. -/
theorem State.reg_setReg_keeps {s : State} {rd : RegId} {x : Reg} (mark : Reg → Bool)
    (hx : mark (s.reg rd) = true → mark x = true) (r : RegId) (hr : mark (s.reg r) = true) :
    mark ((s.setReg rd x).reg r) = true := by
  rw [State.reg_setReg]
  split
  next h => exact hx (h ▸ hr)
  next => exact hr

/-- Settles O20: a register write marks at least what was marked, a store defines its cell, and
nothing else is touched. -/
theorem definedStaysDefined : Obligations.DefinedStaysDefined := by
  unfold Obligations.DefinedStaysDefined
  intro s t hs
  obtain ⟨w, -, h⟩ := step_eq_next_iff.1 hs
  obtain ⟨rd, x, -, rfl, hhi, hlo⟩ | ⟨_, _, _, -, rfl⟩ |
    ⟨-, rfl | ⟨_, _, _, -, rfl⟩ | ⟨_, -, rfl⟩⟩ := exec_next_cases h
  · exact ⟨State.reg_setReg_keeps Reg.hiDefined hhi, State.reg_setReg_keeps Reg.loDefined hlo,
      fun _ => id⟩
  · exact ⟨fun _ => id, fun _ => id, fun _ hb => Memory.read_write_ne_none hb _ _⟩
  all_goals exact ⟨fun _ => id, fun _ => id, fun _ => id⟩

end Sys2Proof.Machine

/-! The spec's step beside the machine's (spec/60_exceptions.md section 1): its outcomes in order, its
runs under either value of `UNINIT_READ`, and what a run under `fault` cannot tell apart. -/

namespace Sys2Proof.Machine

/-! ### The outcomes of the spec's step -/

theorem specStep_of_no_fetch {s : State} (h : s.fetch = none) :
    specStep s = .fault (.machine (.stuckFetch s.pc)) := by simp [specStep, h]

theorem specStep_of_readFault {s : State} {w : Word} {e : ReadFault} (hw : s.fetch = some w)
    (he : readFault s (decode w) = some e) : specStep s = .fault (.uninitRead e) := by
  simp [specStep, hw, he]

theorem specStep_of_no_readFault {s : State} {w : Word} (hw : s.fetch = some w)
    (he : readFault s (decode w) = none) : specStep s = toSpec (exec (decode w) s) := by
  simp [specStep, hw, he]

theorem readFault_of_unreadable {s : State} {i : Instr} {r : RegId}
    (h : i.operands.find? (fun q => !s.readable q) = some r) :
    readFault s i = some (.reg s.pc r) := by simp [readFault, h]

theorem readFault_of_readable {s : State} {i : Instr}
    (h : i.operands.find? (fun q => !s.readable q) = none) :
    readFault s i = (undefinedLoad s i).map (.mem s.pc) := by simp only [readFault, h]

theorem cellReadable_eq_false_iff {s : State} {a : Word} :
    s.cellReadable a = false ↔
      Memory.read s.dmem a.toNat = none ∧ s.params.uninitRead = .fault := by
  cases hp : s.params.uninitRead with
  | anyValue => simp [cellReadable_anyValue hp]
  | fault => simp [cellReadable_fault hp]

/-- Only an LD of an existing cell that may not be loaded is `UninitRead` of a cell. -/
theorem undefinedLoad_eq_some_iff {s : State} {i : Instr} {a : Word} :
    undefinedLoad s i = some a ↔
      isLoad i = true ∧ dataAddress s i = some a ∧ s.dataValid a = true ∧
        s.cellReadable a = false := by
  cases i with
  | ld rd rs1 o =>
    simp only [undefinedLoad, isLoad, dataAddress, true_and, Option.some.injEq]
    constructor
    · intro h
      split at h
      next hc => cases h; simpa using hc
      next => cases h
    · rintro ⟨rfl, hv, hc⟩
      simp [hv, hc]
  | _ => exact ⟨nofun, nofun⟩

/-- Settles O18. -/
theorem firstUnreadableOperandIsReported : Obligations.FirstUnreadableOperandIsReported :=
  fun _ _ _ hw hr => specStep_of_readFault hw (readFault_of_unreadable hr)

/-- Settles O19: under `any_value` there is no `UninitRead`. -/
theorem anyValueNeverFaultsOnReads : Obligations.AnyValueNeverFaultsOnReads := by
  unfold Obligations.AnyValueNeverFaultsOnReads
  refine ⟨fun s hp => ?_, fun s f => step_eq_fault⟩
  obtain ⟨w, e, -, he, -⟩ | ⟨-, hs⟩ := specStep_cases s
  · rw [readFault_anyValue hp] at he; cases he
  · exact hs

/-- Where the spec's step meets no `UninitRead`, it has the outcome of the instruction, and so has the
machine's step. -/
theorem both_steps_of_no_readFault {s : State} {w : Word} (hw : s.fetch = some w)
    (he : readFault s (decode w) = none) :
    specStep s = toSpec (exec (decode w) s) ∧ step s = exec (decode w) s :=
  ⟨specStep_of_no_readFault hw he, step_of_fetch hw⟩

theorem both_steps_next {s : State} {w : Word} (hw : s.fetch = some w)
    (he : readFault s (decode w) = none) (hx : ∃ t, exec (decode w) s = .next t) :
    ∃ t, specStep s = .next t ∧ step s = .next t ∧ exec (decode w) s = .next t := by
  obtain ⟨t, ht⟩ := hx
  obtain ⟨h₁, h₂⟩ := both_steps_of_no_readFault hw he
  rw [ht] at h₁ h₂
  exact ⟨t, h₁, h₂, ht⟩

theorem both_steps_fault {s : State} {w : Word} {f : Fault} (hw : s.fetch = some w)
    (he : readFault s (decode w) = none) (hx : exec (decode w) s = .fault f) :
    specStep s = .fault (.machine f) ∧ step s = .fault f := by
  obtain ⟨h₁, h₂⟩ := both_steps_of_no_readFault hw he
  rw [hx] at h₁ h₂
  exact ⟨h₁, h₂⟩

theorem decode_ne_illegal {w : Word} (h : opField w ≠ 10) (x : Word) : decode w ≠ .illegal x := by
  intro hd
  rw [← opcode_decode, hd] at h
  exact h rfl

/-- There is no `UninitRead` where every operand may be read and the cell an LD reads may be loaded. -/
theorem readFault_eq_none {s : State} {i : Instr}
    (hr : i.operands.find? (fun q => !s.readable q) = none)
    (hc : ∀ a, dataAddress s i = some a → isLoad i = true → s.dataValid a = true →
      s.cellReadable a ≠ false) : readFault s i = none := by
  rw [readFault_of_readable hr, Option.map_eq_none_iff, Option.eq_none_iff_forall_ne_some]
  intro a ha
  obtain ⟨hl, ha, hv, hcell⟩ := undefinedLoad_eq_some_iff.1 ha
  exact hc a ha hl hv hcell

/-- Settles O15: the branches of the statement are those of `specStep` and of the instruction's data
address, in the same order. -/
theorem stepOutcomesInOrder : Obligations.StepOutcomesInOrder := by
  unfold Obligations.StepOutcomesInOrder
  intro s
  split
  next hw => exact ⟨specStep_of_no_fetch hw, step_of_no_fetch hw⟩
  next w hw =>
  split
  next hop =>
    have hd := decode_of_opField_ten hop
    exact both_steps_fault hw (by rw [hd]; rfl) (by rw [hd]; rfl)
  next hop =>
  have hi := decode_ne_illegal hop
  split
  next r hr => exact specStep_of_readFault hw (readFault_of_unreadable hr)
  next hr =>
  split
  next hd =>
    exact both_steps_next hw (readFault_eq_none hr (by simp [hd]))
      (exec_completes hi (by simp [hd]))
  next a hd =>
  split
  next hv =>
    exact both_steps_fault hw (readFault_eq_none hr (by simp [hd, hv])) (exec_of_absent hd hv)
  next hv =>
  rw [Bool.not_eq_false] at hv
  split
  next hc =>
    obtain ⟨hl, hcell⟩ := hc
    refine specStep_of_readFault hw ?_
    rw [readFault_of_readable hr,
      undefinedLoad_eq_some_iff.2 ⟨hl, hd, hv, cellReadable_eq_false_iff.2 hcell⟩, Option.map_some]
  next hc =>
    refine both_steps_next hw (readFault_eq_none hr fun b hb hl _ hcell => ?_)
      (exec_completes hi (by simp [hd, hv]))
    obtain rfl : a = b := Option.some.inj (hd.symm.trans hb)
    exact hc ⟨hl, cellReadable_eq_false_iff.1 hcell⟩

end Sys2Proof.Machine

/-! What an instruction does not look at: `UNINIT_READ`, the data memory but for LD, the registers it
does not read; and what runs of the spec's step have in common with runs of the machine's. -/

namespace Sys2Proof.Machine

/-! ### Changing what a meaning does not look at -/

/-- A change of the state that neither the effect nor its application notices passes through the
instruction. -/
theorem exec_eq_mapNext {i : Instr} {s : State} (f : State → State)
    (he : effectOf (f s) i = effectOf s i)
    (ha : ∀ e, effectOf s i = .ok e → e.apply (f s) = f (e.apply s)) :
    exec i (f s) = mapNext f (exec i s) := by
  rw [exec_eq_answer, exec_eq_answer, he]
  cases hs : effectOf s i with
  | ok e => exact congrArg _ (ha e hs)
  | error _ => rfl

theorem exec_withUninit (i : Instr) (s : State) (p : Config.UninitRead) :
    exec i (s.withUninit p) = mapNext (·.withUninit p) (exec i s) :=
  exec_eq_mapNext (·.withUninit p) (by cases i <;> rfl) fun e _ => by cases e <;> rfl

theorem effectOf_withData {i : Instr} (h : isLoad i = false) (s : State) (m : Memory) :
    effectOf (s.withData m) i = effectOf s i := by
  cases i with
  | ld => cases h
  | _ => rfl

theorem apply_withData {e : Effect} (h : ∀ a v, e ≠ .store a v) (s : State) (m : Memory) :
    e.apply (s.withData m) = (e.apply s).withData m := by
  cases e with
  | store a v => exact absurd rfl (h a v)
  | _ => rfl

theorem isStore_of_effectOf_store {s : State} {i : Instr} {a v : Word}
    (h : effectOf s i = .ok (.store a v)) : isStore i = true := by
  cases i with
  | st => rfl
  | ld rd rs1 o =>
    simp only [effectOf, onData] at h
    split at h <;> cases h
  | _ => cases h

/-- Settles O55: the effect of neither kind of instruction is made from data memory, and only the
effect of ST touches it. -/
theorem onlyLoadsReadData : Obligations.OnlyLoadsReadData := by
  unfold Obligations.OnlyLoadsReadData
  refine ⟨fun i s m hl hs => ?_, fun s m rs2 rs1 o => ?_⟩
  · refine exec_eq_mapNext (·.withData m) ?_ fun e he => apply_withData ?_ s m
    · exact effectOf_withData hl s m
    · rintro a v rfl
      rw [isStore_of_effectOf_store he] at hs; cases hs
  · cases hv : s.dataValid (effAddr (s.reg rs1).value o) with
    | true =>
      rw [exec_st_of_dataValid hv, exec_st_of_dataValid (s := s.withData m) hv]; rfl
    | false =>
      rw [exec_of_absent rfl hv, exec_of_absent (s := s.withData m) rfl hv]; rfl

/-! ### Changing the registers -/

/-- The same effect at two states gives the same pc where they have the same pc. -/
theorem apply_pc_congr (e : Effect) {s u : State} (h : s.pc = u.pc) :
    (e.apply s).pc = (e.apply u).pc := by
  cases e with
  | goto p => rfl
  | _ => exact congrArg (· + 4) h

theorem apply_dmem_congr (e : Effect) {s u : State} (h : s.dmem = u.dmem) :
    (e.apply s).dmem = (e.apply u).dmem := by
  cases e with
  | store a v => exact congrArg (Memory.write · a.toNat v) h
  | _ => exact h

/-- An instruction other than LUI and LLI that names a destination writes all of it. -/
theorem effectOf_of_dest {s : State} {i : Instr} {e : Effect} {rd : RegId}
    (he : effectOf s i = .ok e) (hd : i.dest = some rd) :
    (∃ b, i = .lui rd b ∧ e = .writeHigh rd b) ∨ (∃ b, i = .lli rd b ∧ e = .writeLow rd b) ∨
      ∃ v, e = .write rd v := by
  cases i with
  | ld rd' rs1 o =>
    cases hd
    simp only [effectOf, onData] at he
    split at he <;> cases he
    exact .inr (.inr ⟨_, rfl⟩)
  | lui rd' b => cases hd; cases he; exact .inl ⟨b, rfl, rfl⟩
  | lli rd' b => cases hd; cases he; exact .inr (.inl ⟨b, rfl, rfl⟩)
  | _ => cases hd <;> cases he <;> exact .inr (.inr ⟨_, rfl⟩)

/-- The value of a register written whole does not depend on the state. -/
theorem reg_apply_write (rd : RegId) (v : Word) (s : State) :
    ((Effect.write rd v).apply s).reg rd = fullReg v := State.reg_setReg_same s rd _

theorem reg_apply_writeHigh (rd : RegId) (b : Byte) (s : State) :
    (((Effect.writeHigh rd b).apply s).reg rd).high = b := by
  rw [Effect.apply, State.reg_advance, State.writeHigh, State.reg_setReg_same, Reg.high_append]

theorem reg_apply_writeLow (rd : RegId) (b : Byte) (s : State) :
    (((Effect.writeLow rd b).apply s).reg rd).low = b := by
  rw [Effect.apply, State.reg_advance, State.writeLow, State.reg_setReg_same, Reg.low_append]

/-- Settles O53: the two states give the same effect, and an effect leaves the same pc, data memory and
written value wherever it is applied. -/
theorem onlyOperandsMatter : Obligations.OnlyOperandsMatter := by
  unfold Obligations.OnlyOperandsMatter
  intro i s s' t hpc hd hp hr h
  obtain ⟨e, he, rfl⟩ := exec_eq_next_iff.1 h
  have he' : effectOf s' i = .ok e :=
    (effectOf_congr hpc hd hp fun r hm => congrArg Reg.value (hr r hm)).symm.trans he
  refine ⟨e.apply s', exec_eq_next_iff.2 ⟨e, he', rfl⟩, apply_pc_congr e hpc.symm,
    apply_dmem_congr e hd.symm, fun rd hrd => ?_⟩
  obtain ⟨b, rfl, rfl⟩ | ⟨b, rfl, rfl⟩ | ⟨v, rfl⟩ := effectOf_of_dest he hrd
  · exact (reg_apply_writeHigh rd b s').trans (reg_apply_writeHigh rd b s).symm
  · exact (reg_apply_writeLow rd b s').trans (reg_apply_writeLow rd b s).symm
  · have hv := (reg_apply_write rd v s').trans (reg_apply_write rd v s).symm
    split
    · exact congrArg Reg.high hv
    · exact congrArg Reg.low hv
    · exact hv

/-! ### Runs under either value of `UNINIT_READ` -/

theorem step_params {s t : State} (h : step s = .next t) : t.params = s.params := by
  obtain ⟨w, -, hx⟩ := step_eq_next_iff.1 h
  exact exec_params hx

theorem step_withUninit (s : State) (p : Config.UninitRead) :
    step (s.withUninit p) = mapNext (·.withUninit p) (step s) := by
  cases hw : s.fetch with
  | none => rw [step_of_no_fetch hw, step_of_no_fetch (s := s.withUninit p) hw]; rfl
  | some w => rw [step_of_fetch hw, step_of_fetch (s := s.withUninit p) hw, exec_withUninit]

theorem runSteps_withUninit (k : Nat) (s : State) (p : Config.UninitRead) :
    runSteps k (s.withUninit p) = mapNext (·.withUninit p) (runSteps k s) := by
  induction k generalizing s with
  | zero => rfl
  | succ k ih =>
    rw [runSteps, runSteps, step_withUninit]
    cases step s with
    | next t => exact ih t
    | _ => rfl

/-- Under `any_value` a run of the spec's step is the machine's run. -/
theorem runSpec_eq_toSpec_runSteps {s : State} (k : Nat) (hp : s.params.uninitRead = .anyValue) :
    runSpec k s = toSpec (runSteps k s) := by
  induction k generalizing s with
  | zero => rfl
  | succ k ih =>
    rw [runSpec, runSteps, anyValueNeverFaultsOnReads.1 s hp]
    cases hs : step s with
    | next t => exact ih (by rw [step_params hs, hp])
    | _ => rfl

/-- A run of the spec's step that reaches a state is the machine's run. -/
theorem runSteps_of_runSpec {k : Nat} {s t : State} (h : runSpec k s = .next t) :
    runSteps k s = .next t := by
  induction k generalizing s with
  | zero => cases h; rfl
  | succ k ih =>
    rw [runSpec] at h
    cases hs : specStep s with
    | next u =>
      rw [hs] at h
      exact runSteps_succ_next (step_of_specStep hs) (ih h)
    | _ => rw [hs] at h; cases h

/-- Settles O60. -/
theorem unwrittenReadNeverStopsTheMachine : Obligations.UnwrittenReadNeverStopsTheMachine :=
  ⟨exec_withUninit, fun _ _ => exec_completes, fun k _ => runSpec_eq_toSpec_runSteps k⟩

/-- Settles O21: the run is the machine's, which is the same under either value of `UNINIT_READ` and
is the spec's own under `any_value`. -/
theorem faultPolicyRunsAgreeWithAnyValue : Obligations.FaultPolicyRunsAgreeWithAnyValue := by
  unfold Obligations.FaultPolicyRunsAgreeWithAnyValue
  intro k s t _ h
  have hm := runSteps_of_runSpec h
  refine ⟨?_, hm⟩
  rw [runSpec_eq_toSpec_runSteps k rfl, runSteps_withUninit, hm]; rfl

/-- Settles O48: the jump to the pc gives back the state, whatever the number of steps. -/
theorem endedRunStaysAsItIs : Obligations.EndedRunStaysAsItIs := by
  unfold Obligations.EndedRunStaysAsItIs
  rintro s ⟨w, imm, hw, hd, hpc⟩
  have himm := imm.isLt
  have htarget : jumpTarget imm = s.pc := by
    apply BitVec.eq_of_toNat_eq
    rw [toNat_jumpTarget, hpc]
  have hstep : step s = .next s := by
    rw [step_of_fetch hw, hd, exec, execJmp, htarget]; rfl
  refine ⟨by omega, fun k => ?_⟩
  induction k with
  | zero => rfl
  | succ k ih => exact runSteps_succ_next hstep ih

/-! ### States that look the same -/

theorem cellReadable_congr {s u : State} (hd : s.dmem = u.dmem) (hp : s.params = u.params)
    (a : Word) : s.cellReadable a = u.cellReadable a := by
  rw [State.cellReadable, State.cellReadable, hd, hp]

theorem AgreesWhereDefined.refl (x : Reg) : AgreesWhereDefined x x :=
  ⟨rfl, rfl, fun _ => rfl, fun _ => rfl⟩

theorem AgreesWhereDefined.defined_eq {x y : Reg} (h : AgreesWhereDefined x y) :
    x.defined = y.defined := by rw [Reg.defined, Reg.defined, h.hiMark, h.loMark]

theorem LooksSame.readable_eq {s t : State} (h : LooksSame s t) (r : RegId) :
    s.readable r = t.readable r := by
  rw [State.readable, State.readable, h.params, (h.regs r).defined_eq]

theorem LooksSame.fetch_eq {s t : State} (h : LooksSame s t) : s.fetch = t.fetch := by
  rw [State.fetch, State.fetch, h.imem, h.pc]

theorem LooksSame.jumpTo {s t : State} (h : LooksSame s t) (p : Word) :
    LooksSame (s.jumpTo p) (t.jumpTo p) := ⟨h.regs, rfl, h.dmem, h.imem, h.params⟩

theorem LooksSame.advance {s t : State} (h : LooksSame s t) : LooksSame s.advance t.advance := by
  rw [State.advance, State.advance, h.pc]
  exact h.jumpTo _

theorem LooksSame.setReg {s t : State} (h : LooksSame s t) (r : RegId) {x y : Reg}
    (hxy : AgreesWhereDefined x y) : LooksSame (s.setReg r x) (t.setReg r y) := by
  refine ⟨fun q => ?_, h.pc, h.dmem, h.imem, h.params⟩
  rw [State.reg_setReg, State.reg_setReg]
  split
  · exact hxy
  · exact h.regs q

theorem LooksSame.setCell {s t : State} (h : LooksSame s t) (a v : Word) :
    LooksSame (s.setCell a v) (t.setCell a v) :=
  ⟨h.regs, h.pc, congrArg (Memory.write · a.toNat v) h.dmem, h.imem, h.params⟩

/-- LUI keeps the low byte and its mark: where it is undefined it stays hidden. -/
theorem AgreesWhereDefined.withHigh {x y : Reg} (h : AgreesWhereDefined x y) (b : Byte) :
    AgreesWhereDefined { value := b ++ x.low, hiDefined := true, loDefined := x.loDefined }
      { value := b ++ y.low, hiDefined := true, loDefined := y.loDefined } :=
  ⟨rfl, h.loMark, fun _ => by rw [Reg.high_append, Reg.high_append],
    fun hl => by rw [Reg.low_append, Reg.low_append, h.low hl]⟩

/-- LLI keeps the high byte and its mark. -/
theorem AgreesWhereDefined.withLow {x y : Reg} (h : AgreesWhereDefined x y) (b : Byte) :
    AgreesWhereDefined { value := x.high ++ b, hiDefined := x.hiDefined, loDefined := true }
      { value := y.high ++ b, hiDefined := y.hiDefined, loDefined := true } :=
  ⟨h.hiMark, rfl, fun hh => by rw [Reg.high_append, Reg.high_append, h.high hh],
    fun _ => by rw [Reg.low_append, Reg.low_append]⟩

theorem LooksSame.apply {s t : State} (h : LooksSame s t) (e : Effect) :
    LooksSame (e.apply s) (e.apply t) := by
  cases e with
  | write rd v => exact (h.setReg rd (.refl _)).advance
  | writeHigh rd b => exact (h.setReg rd ((h.regs rd).withHigh b)).advance
  | writeLow rd b => exact (h.setReg rd ((h.regs rd).withLow b)).advance
  | store a v => exact (h.setCell a v).advance
  | goto p => exact h.jumpTo p

theorem undefinedLoad_congr {i : Instr} {s u : State} (hd : s.dmem = u.dmem)
    (hp : s.params = u.params) (hr : ∀ r ∈ i.operands, (s.reg r).value = (u.reg r).value) :
    undefinedLoad s i = undefinedLoad u i := by
  cases i with
  | ld rd rs1 o =>
    rw [undefinedLoad, undefinedLoad, hr rs1 List.mem_cons_self, dataValid_congr hp,
      cellReadable_congr hd hp]
  | _ => rfl

/-- Operands that may be read under `fault` are defined, so they hold the same values. -/
theorem LooksSame.operand_values {s t : State} (h : LooksSame s t)
    (hp : s.params.uninitRead = .fault) {i : Instr}
    (hr : i.operands.find? (fun q => !s.readable q) = none) :
    ∀ r ∈ i.operands, (s.reg r).value = (t.reg r).value := by
  intro r hm
  have hread := List.find?_eq_none.1 hr r hm
  rw [Bool.not_eq_true, Bool.not_eq_false', readable_fault hp] at hread
  exact (h.regs r).value_eq hread

theorem LooksSame.readFault_eq {s t : State} (h : LooksSame s t)
    (hp : s.params.uninitRead = .fault) (i : Instr) : readFault s i = readFault t i := by
  have hread : (fun q => !s.readable q) = fun q => !t.readable q :=
    funext fun q => by rw [h.readable_eq q]
  cases hr : i.operands.find? (fun q => !s.readable q) with
  | some r => rw [readFault_of_unreadable hr, readFault_of_unreadable (hread ▸ hr), h.pc]
  | none =>
    rw [readFault_of_readable hr, readFault_of_readable (hread ▸ hr), h.pc,
      undefinedLoad_congr h.dmem h.params (h.operand_values hp hr)]

theorem operands_readable_of_no_readFault {s : State} {i : Instr} (h : readFault s i = none) :
    i.operands.find? (fun q => !s.readable q) = none := by
  cases hr : i.operands.find? (fun q => !s.readable q) with
  | some r => rw [readFault_of_unreadable hr] at h; cases h
  | none => rfl

/-- One step: the same `UninitRead`, or the same effect. -/
theorem LooksSame.sameOutcome_specStep {s t : State} (h : LooksSame s t)
    (hp : s.params.uninitRead = .fault) :
    SameOutcome LooksSame (specStep s) (specStep t) := by
  cases hw : s.fetch with
  | none =>
    rw [specStep_of_no_fetch hw, specStep_of_no_fetch (h.fetch_eq ▸ hw), h.pc]; exact rfl
  | some w =>
    have hw' : t.fetch = some w := h.fetch_eq ▸ hw
    have he' := h.readFault_eq hp (decode w)
    cases he : readFault s (decode w) with
    | some e =>
      rw [specStep_of_readFault hw he, specStep_of_readFault hw' (he' ▸ he)]; exact rfl
    | none =>
      have hv := h.operand_values hp (operands_readable_of_no_readFault he)
      rw [specStep_of_no_readFault hw he, specStep_of_no_readFault hw' (he' ▸ he),
        exec_eq_answer, exec_eq_answer, effectOf_congr h.pc h.dmem h.params hv]
      cases effectOf t (decode w) with
      | ok e => exact h.apply e
      | error f => exact rfl

theorem sameOutcome_cases {R : State → State → Prop} {x y : SpecResult} (h : SameOutcome R x y) :
    (∃ t u, x = .next t ∧ y = .next u ∧ R t u) ∨ (∃ e, x = .fault e ∧ y = .fault e) ∨
      ∃ r, x = .refused r ∧ y = .refused r := by
  cases x <;> cases y <;> simp_all [SameOutcome]

/-- Settles O22, by induction on the number of steps. -/
theorem undefinedBytesCannotBeLearned : Obligations.UndefinedBytesCannotBeLearned := by
  unfold Obligations.UndefinedBytesCannotBeLearned
  intro k
  induction k with
  | zero => exact fun s t _ h => h
  | succ k ih =>
    intro s t hp h
    obtain ⟨s', t', hs, ht, h'⟩ | ⟨e, hs, ht⟩ | ⟨r, hs, ht⟩ :=
        sameOutcome_cases (h.sameOutcome_specStep hp) <;>
      simp only [runSpec, hs, ht]
    · exact ih s' t' (by rw [step_params (step_of_specStep hs), hp]) h'
    all_goals exact rfl

end Sys2Proof.Machine

/-! The stores: what a canonical store determines, and what loading a program and a data image leaves
in them (spec/20_memory.md section 1, spec/70_reset_and_hazards.md). -/

namespace Sys2Proof.Machine

/-! ### Canonical stores -/

theorem Memory.read_eq_none_of_ne {m : Memory} {a : Nat} (h : ∀ c ∈ m, c.1 ≠ a) :
    Memory.read m a = none := by
  cases hr : Memory.read m a with
  | none => rfl
  | some v => exact absurd rfl (h _ (Memory.mem_of_read hr))

theorem Memory.read_cons_same (a : Nat) (v : Word) (m : Memory) :
    Memory.read ((a, v) :: m) a = some v := if_pos rfl

theorem Memory.read_cons_other {a b : Nat} (h : b ≠ a) (v : Word) (m : Memory) :
    Memory.read ((a, v) :: m) b = Memory.read m b := if_neg h

/-- In a rising store the first cell is the lowest listed one. -/
theorem Memory.head_le_of_read {k a : Nat} {u v : Word} {m : Memory}
    (h : ((k, u) :: m).Pairwise (fun c d => c.1 < d.1))
    (hr : Memory.read ((k, u) :: m) a = some v) : k ≤ a := by
  rcases List.mem_cons.1 (Memory.mem_of_read hr) with hc | hc
  · cases hc; exact Nat.le_refl _
  · exact Nat.le_of_lt ((List.pairwise_cons.1 h).1 _ hc)

/-- Rising stores that read alike are equal: their first cells are, and so are the rests. -/
theorem Memory.eq_of_read_eq {m n : Memory} (hm : m.Pairwise (fun c d => c.1 < d.1))
    (hn : n.Pairwise (fun c d => c.1 < d.1)) (h : ∀ a, Memory.read m a = Memory.read n a) :
    m = n := by
  induction m generalizing n with
  | nil =>
    cases n with
    | nil => rfl
    | cons d n => have := h d.1; rw [Memory.read_cons_same] at this; cases this
  | cons c m ih =>
    obtain ⟨k, u⟩ := c
    cases n with
    | nil => have := h k; rw [Memory.read_cons_same] at this; cases this
    | cons d n =>
      obtain ⟨l, v⟩ := d
      have hk := h k
      have hl := h l
      rw [Memory.read_cons_same] at hk hl
      obtain rfl : k = l :=
        Nat.le_antisymm (Memory.head_le_of_read hm hl) (Memory.head_le_of_read hn hk.symm)
      rw [Memory.read_cons_same] at hk
      obtain rfl := Option.some.inj hk
      obtain ⟨hkm, hm⟩ := List.pairwise_cons.1 hm
      obtain ⟨hkn, hn⟩ := List.pairwise_cons.1 hn
      refine congrArg _ (ih hm hn fun a => ?_)
      by_cases ha : a = k
      · subst ha
        rw [Memory.read_eq_none_of_ne fun c hc => Nat.ne_of_gt (hkm c hc),
          Memory.read_eq_none_of_ne fun c hc => Nat.ne_of_gt (hkn c hc)]
      · rw [← Memory.read_cons_other ha u m, ← Memory.read_cons_other ha u n, h a]

/-- Settles O59: the rising order alone determines the list. -/
theorem canonicalStoresAreEqualWhenTheyReadAlike :
    Obligations.CanonicalStoresAreEqualWhenTheyReadAlike :=
  fun _ _ hm hn => Memory.eq_of_read_eq hm.1 hn.1

/-! ### Loading -/

theorem read_programImage (b k : Nat) (p : List Word) :
    Memory.read (programImage b p) (b + 4 * k) = p[k]? := by
  induction p generalizing b k with
  | nil => rfl
  | cons w p ih =>
    cases k with
    | zero => exact Memory.read_cons_same b w _
    | succ k =>
      have hslot : b + 4 * (k + 1) = b + 4 + 4 * k := by omega
      rw [programImage, Memory.read_cons_other (by omega), hslot, ih, List.getElem?_cons_succ]

theorem read_programImage_outside {a : Nat} {p : List Word}
    (h : a % 4 ≠ 0 ∨ 4 * p.length ≤ a) : Memory.read (programImage 0 p) a = none := by
  refine Memory.read_eq_none_of_ne fun c hc => ?_
  have := programImage_bounds hc
  omega

/-- Loading data changes data memory only. -/
theorem loadData_frame (image : List (Word × Word)) (s : State) :
    (s.loadData image).pc = s.pc ∧ (s.loadData image).params = s.params ∧
      (s.loadData image).regs = s.regs ∧ (s.loadData image).imem = s.imem := by
  induction image generalizing s with
  | nil => exact ⟨rfl, rfl, rfl, rfl⟩
  | cons c image ih => exact ih (s.setCell c.1 c.2)

/-- The last word the image gives a cell, else what was there. -/
theorem read_loadData (image : List (Word × Word)) (s : State) (a : Word) :
    Memory.read (s.loadData image).dmem a.toNat =
      ((image.reverse.find? (fun c => c.1 == a)).map (·.2)).or (Memory.read s.dmem a.toNat) := by
  induction image generalizing s with
  | nil => rfl
  | cons c image ih =>
    refine (ih (s.setCell c.1 c.2)).trans ?_
    rw [List.reverse_cons, List.find?_append, Option.map_or, Option.or_assoc]
    congr 1
    by_cases hc : c.1 = a
    · subst hc
      simp
    · have hne : a.toNat ≠ c.1.toNat := fun h => hc (BitVec.eq_of_toNat_eq h.symm)
      simp [hc, Memory.read_write_other _ _ hne]

/-- Settles O8: the program image answers for the slots, the data image for the cells, and reset for
everything else. -/
theorem loadedResetStateIsAsSpecified : Obligations.LoadedResetStateIsAsSpecified := by
  unfold Obligations.LoadedResetStateIsAsSpecified
  intro program image _ s
  obtain ⟨hpc, hparams, hregs, himem⟩ := loadData_frame image (State.reset.loadProgram program)
  have hslot (k : Nat) : Memory.read s.imem (4 * k) = program[k]? := by
    rw [himem, ← read_programImage 0 k program, Nat.zero_add]; rfl
  refine ⟨hpc, hparams, fun r => ?_, fun a => ?_, fun k _ => hslot k, fun a ha => ?_, ?_⟩
  · have hr : s.reg r = Reg.atReset := by
      simp only [State.reg, s, hregs]
      exact Vector.getElem_replicate ..
    rw [hr]; exact ⟨rfl, rfl⟩
  · exact (read_loadData image _ a).trans Option.or_none
  · rw [himem]; exact read_programImage_outside ha
  · rw [State.fetch, hpc, List.head?_eq_getElem?]; exact hslot 0

end Sys2Proof.Machine

/-! Effective addresses, branch and jump targets, and the results of ADD, SUB and the shifts, as numbers
(spec/20_memory.md sections 2 and 5, spec/41_data_processing.md, spec/42_branch.md, spec/43_jump.md).
The machine goes on with any operands (log entry 2), so the readable operands of the statements below
are not used. -/

namespace Sys2Proof.Machine

/-! ### Signed offsets -/

theorem toNat_add_ofInt (a : Word) (z : Int) :
    ((a + BitVec.ofInt 16 z).toNat : Int) = ((a.toNat : Int) + z) % 65536 := by
  rw [BitVec.toNat_add, Int.natCast_emod, Int.natCast_add, BitVec.toNat_ofInt,
    Int.toNat_of_nonneg (Int.emod_nonneg z (by decide))]
  simp

/-- The sign extension of a 6-bit field as a number: the upper half stands below 2^16. -/
theorem toNat_signExtend_offset (o : BitVec 6) :
    (o.signExtend 16).toNat = if o.toNat < 32 then o.toNat else o.toNat + 65472 := by
  have := o.isLt
  simp only [BitVec.toNat_signExtend, BitVec.msb_eq_decide, BitVec.toNat_setWidth,
    decide_eq_true_eq]
  split <;> split <;> omega

/-- Settles O23: the sign extension is the signed number of the field. -/
theorem effectiveAddressIsSignedSum : Obligations.EffectiveAddressIsSignedSum :=
  fun base o => toNat_add_ofInt base o.toInt

/-- The 64 offsets are the numbers from -32 to 31. -/
theorem exists_signExtend_offset_iff (d : Word) :
    (∃ o : BitVec 6, o.signExtend 16 = d) ↔ (d + 32).toNat < 64 := by
  have hd := d.isLt
  rw [BitVec.toNat_add, show (32 : Word).toNat = 32 from rfl]
  constructor
  · rintro ⟨o, rfl⟩
    have := o.isLt
    rw [toNat_signExtend_offset]
    split <;> omega
  · intro h
    refine ⟨d.setWidth 6, BitVec.eq_of_toNat_eq ?_⟩
    rw [toNat_signExtend_offset, BitVec.toNat_setWidth]
    split <;> omega

/-- Settles O29: the offset is the distance from the base. -/
theorem offsetReachesSixtyFourAddresses : Obligations.OffsetReachesSixtyFourAddresses := by
  unfold Obligations.OffsetReachesSixtyFourAddresses
  intro base a
  rw [← exists_signExtend_offset_iff]
  exact exists_congr fun o => by rw [effAddr, eq_sub_iff_add_eq, add_comm]

/-! ### Branch and jump targets -/

theorem toNat_pc_add_four (pc : Word) :
    ((pc + 4).toNat : Int) = ((pc.toNat : Int) + 4) % 65536 := toNat_add_ofInt pc 4

theorem branchTarget_eq (pc : Word) (o : BitVec 6) :
    branchTarget pc o = pc + BitVec.ofInt 16 (4 + o.toInt * 4) := by
  rw [BitVec.ofInt_add, BitVec.ofInt_mul, ← add_assoc]; rfl

theorem toNat_branchTarget (pc : Word) (o : BitVec 6) :
    ((branchTarget pc o).toNat : Int) = ((pc.toNat : Int) + 4 + o.toInt * 4) % 65536 := by
  rw [branchTarget_eq, toNat_add_ofInt, add_assoc]

/-- R71 for branches: within reach and a multiple of 4 away, the field leads to the label. -/
theorem branchTarget_branchOffsetTo {pc l : Word} (hr : (l - pc + 124).toNat ≤ 252)
    (h4 : (l - pc).toNat % 4 = 0) : branchTarget pc (branchOffsetTo pc l) = l := by
  obtain ⟨d, rfl⟩ : ∃ d, l = pc + 4 + d := ⟨l - (pc + 4), by abel⟩
  rw [show pc + 4 + d - pc = d + 4 by abel] at hr h4
  rw [branchTarget, branchOffsetTo, show pc + 4 + d - (pc + 4) = d by abel]
  refine congrArg (pc + 4 + ·) (BitVec.eq_of_toNat_eq ?_)
  rw [BitVec.toNat_mul, toNat_signExtend_offset, BitVec.extractLsb'_toNat,
    Nat.shiftRight_eq_div_pow]
  have hd := d.isLt
  simp only [BitVec.toNat_add, show (4 : Word).toNat = 4 from rfl,
    show (124 : Word).toNat = 124 from rfl] at *
  split <;> omega

/-- R71 for jumps. -/
theorem jumpTarget_jumpSlotOf {l : Word} (hl : l.toNat < 0x4000) (h4 : l.toNat % 4 = 0) :
    jumpTarget (jumpSlotOf l) = l := by
  apply BitVec.eq_of_toNat_eq
  rw [toNat_jumpTarget, jumpSlotOf, BitVec.extractLsb'_toNat, Nat.shiftRight_eq_div_pow]
  omega

/-- Settles O47. -/
theorem labelsReachTheirAddress : Obligations.LabelsReachTheirAddress :=
  ⟨fun _ _ => branchTarget_branchOffsetTo, fun _ => jumpTarget_jumpSlotOf⟩

theorem branchTarget_in_reach (pc : Word) (o : BitVec 6) :
    (branchTarget pc o - pc + 124).toNat ≤ 252 ∧ (branchTarget pc o - pc).toNat % 4 = 0 := by
  have ho := o.isLt
  rw [show branchTarget pc o - pc = 4 + o.signExtend 16 * 4 by rw [branchTarget]; abel]
  simp only [BitVec.toNat_add, BitVec.toNat_mul, toNat_signExtend_offset,
    show (4 : Word).toNat = 4 from rfl, show (124 : Word).toNat = 124 from rfl]
  split <;> omega

/-- Settles O46: the field computed for an address within reach leads there. -/
theorem branchAndJumpReach : Obligations.BranchAndJumpReach := by
  unfold Obligations.BranchAndJumpReach
  refine ⟨fun pc p => ⟨?_, fun ⟨hr, h4⟩ => ⟨_, branchTarget_branchOffsetTo hr h4⟩⟩,
    fun p => ⟨?_, fun ⟨hl, h4⟩ => ⟨_, jumpTarget_jumpSlotOf hl h4⟩⟩⟩
  · rintro ⟨o, rfl⟩
    exact branchTarget_in_reach pc o
  · rintro ⟨imm, rfl⟩
    have := imm.isLt
    rw [toNat_jumpTarget]
    omega

/-! ### Control transfer -/

theorem operandsEqual_iff (a b : Word) : operandsEqual a b = true ↔ a = b := beq_iff_eq

theorem exec_beq (rs1 rs2 : RegId) (o : BitVec 6) (s : State) :
    exec (.beq rs1 rs2 o) s =
      .next (s.jumpTo (if (s.reg rs1).value = (s.reg rs2).value
        then branchTarget s.pc o else s.pc + 4)) := by
  rw [exec_eq_answer, effectOf]
  simp only [operandsEqual_iff]; rfl

theorem exec_bne (rs1 rs2 : RegId) (o : BitVec 6) (s : State) :
    exec (.bne rs1 rs2 o) s =
      .next (s.jumpTo (if (s.reg rs1).value = (s.reg rs2).value
        then s.pc + 4 else branchTarget s.pc o)) := by
  rw [exec_eq_answer, effectOf]
  simp only [Bool.not_eq_true', ← Bool.not_eq_true, operandsEqual_iff, ite_not]; rfl

theorem exec_jmp (imm : BitVec 12) (s : State) :
    exec (.jmp imm) s = .next (s.jumpTo (jumpTarget imm)) := rfl

/-- Settles O41. -/
theorem beqBranchesOnEqual : Obligations.BeqBranchesOnEqual := by
  unfold Obligations.BeqBranchesOnEqual
  intro s rs1 rs2 o _ _
  refine ⟨_, _, exec_beq rs1 rs2 o s, jumpTo_movesOnly s _, ?_⟩
  split
  · exact toNat_branchTarget s.pc o
  · exact toNat_pc_add_four s.pc

/-- Settles O42. -/
theorem bneBranchesOnDifferent : Obligations.BneBranchesOnDifferent := by
  unfold Obligations.BneBranchesOnDifferent
  intro s rs1 rs2 o _ _
  refine ⟨_, _, exec_bne rs1 rs2 o s, jumpTo_movesOnly s _, ?_⟩
  rw [ite_not]
  split
  · exact toNat_pc_add_four s.pc
  · exact toNat_branchTarget s.pc o

/-- Settles O43: both ask whether the operands are equal, and take opposite sides. -/
theorem exactlyOneOfBeqBneIsTaken : Obligations.ExactlyOneOfBeqBneIsTaken := by
  unfold Obligations.ExactlyOneOfBeqBneIsTaken
  intro s rs1 rs2 o _ _
  refine ⟨_, _, exec_beq rs1 rs2 o s, exec_bne rs1 rs2 o s, ?_⟩
  split
  · exact .inl ⟨rfl, rfl⟩
  · exact .inr ⟨rfl, rfl⟩

/-- Settles O44. -/
theorem jmpGoesToSlot : Obligations.JmpGoesToSlot :=
  fun s imm => ⟨_, _, exec_jmp imm s, jumpTo_movesOnly s _, toNat_jumpTarget imm⟩

theorem exec_pc_sequential {i : Instr} {s t : State}
    (h : exec i s = .next t) (hb : ∀ rs1 rs2 o, i ≠ .beq rs1 rs2 o ∧ i ≠ .bne rs1 rs2 o)
    (hj : ∀ imm, i ≠ .jmp imm) : t.pc = s.pc + 4 := by
  obtain ⟨_, _, -, rfl, -⟩ | ⟨_, _, _, -, rfl⟩ |
    ⟨-, rfl | ⟨rs1, rs2, o, hi, -⟩ | ⟨imm, hi, -⟩⟩ := exec_next_cases h
  · rfl
  · rfl
  · rfl
  · exact absurd hi (not_or.2 (hb rs1 rs2 o))
  · exact absurd hi (hj imm)

/-- Settles O45: every effect but `goto` advances the pc. -/
theorem nextPcFollowsSummary : Obligations.NextPcFollowsSummary := by
  unfold Obligations.NextPcFollowsSummary
  intro i s t h
  cases i with
  | beq rs1 rs2 o => rw [exec_beq] at h; cases h; rfl
  | bne rs1 rs2 o => rw [exec_bne] at h; cases h; rfl
  | jmp imm => rw [exec_jmp] at h; cases h; rfl
  | _ => exact exec_pc_sequential h (fun _ _ _ => ⟨nofun, nofun⟩) nofun

/-! ### ADD, SUB and the shifts -/

/-- Settles O30. -/
theorem addWritesSum : Obligations.AddWritesSum := by
  unfold Obligations.AddWritesSum
  intro s rd rs1 rs2 _ _
  obtain ⟨t, ht, hw⟩ := dataOp_completes addResult rd rs1 rs2 s
  exact ⟨t, _, ht, hw, BitVec.toNat_add _ _⟩

theorem toNat_subResult (a b : Word) :
    ((subResult a b).toNat : Int) = ((a.toNat : Int) - (b.toNat : Int)) % 65536 := by
  have := b.isLt
  rw [subResult, BitVec.toNat_sub]
  omega

/-- R112: the difference is the sum with the two's complement. -/
theorem subResult_eq_add_not (a b : Word) : subResult a b = a + ~~~b + 1 := by
  rw [subResult, BitVec.sub_eq_add_neg, BitVec.neg_eq_not_add]
  exact (BitVec.add_assoc ..).symm

/-- Settles O31. -/
theorem subWritesDifference : Obligations.SubWritesDifference := by
  unfold Obligations.SubWritesDifference
  intro s rd rs1 rs2 _ _
  obtain ⟨t, ht, hw⟩ := dataOp_completes subResult rd rs1 rs2 s
  exact ⟨t, _, ht, hw, toNat_subResult _ _, subResult_eq_add_not _ _⟩

theorem toNat_lslResult (m : Config.ShiftAmount) (a b : Word) :
    (lslResult m a b).toNat =
      if 16 ≤ shiftCount m b then 0 else a.toNat * 2 ^ shiftCount m b % 65536 := by
  unfold lslResult
  split
  · rfl
  · rw [BitVec.toNat_shiftLeft, Nat.shiftLeft_eq]

theorem toNat_lsrResult (m : Config.ShiftAmount) (a b : Word) :
    (lsrResult m a b).toNat =
      if 16 ≤ shiftCount m b then 0 else a.toNat / 2 ^ shiftCount m b := by
  unfold lsrResult
  split
  · rfl
  · rw [BitVec.toNat_ushiftRight, Nat.shiftRight_eq_div_pow]

theorem exec_lsl_completes (rd rs1 rs2 : RegId) (s : State) :
    ∃ t, exec (.lsl rd rs1 rs2) s = .next t ∧ WritesOnly s t rd
      (fullReg (lslResult s.params.shiftAmount (s.reg rs1).value (s.reg rs2).value)) :=
  dataOp_completes _ rd rs1 rs2 s

theorem exec_lsr_completes (rd rs1 rs2 : RegId) (s : State) :
    ∃ t, exec (.lsr rd rs1 rs2) s = .next t ∧ WritesOnly s t rd
      (fullReg (lsrResult s.params.shiftAmount (s.reg rs1).value (s.reg rs2).value)) :=
  dataOp_completes _ rd rs1 rs2 s

/-- Settles O33. -/
theorem lslShiftsLeft : Obligations.LslShiftsLeft := by
  unfold Obligations.LslShiftsLeft
  intro s rd rs1 rs2 _ _ hm
  obtain ⟨t, ht, hw⟩ := exec_lsl_completes rd rs1 rs2 s
  exact ⟨t, _, ht, hw, by rw [hm, toNat_lslResult]; rfl⟩

/-- Settles O34. -/
theorem lsrShiftsRight : Obligations.LsrShiftsRight := by
  unfold Obligations.LsrShiftsRight
  intro s rd rs1 rs2 _ _ hm
  obtain ⟨t, ht, hw⟩ := exec_lsr_completes rd rs1 rs2 s
  exact ⟨t, _, ht, hw, by rw [hm, toNat_lsrResult]; rfl⟩

theorem shiftCount_lowFourBits_lt (v : Word) : ¬ 16 ≤ shiftCount .lowFourBits v :=
  Nat.not_le.2 (Nat.mod_lt _ (by decide))

/-- Settles O35: a count of 4 bits is below 16. -/
theorem lowFourBitShifts : Obligations.LowFourBitShifts := by
  unfold Obligations.LowFourBitShifts
  intro s rd rs1 rs2 _ _ hm
  obtain ⟨t, ht, hwt⟩ := exec_lsl_completes rd rs1 rs2 s
  obtain ⟨u, hu, hwu⟩ := exec_lsr_completes rd rs1 rs2 s
  refine ⟨t, u, _, _, ht, hwt, hu, hwu, ?_, ?_⟩
  · rw [hm, toNat_lslResult, if_neg (shiftCount_lowFourBits_lt _), shiftCount]
  · rw [hm, toNat_lsrResult, if_neg (shiftCount_lowFourBits_lt _), shiftCount]

theorem shiftCount_of_lt (m : Config.ShiftAmount) {v : Word} (h : v.toNat < 16) :
    shiftCount m v = v.toNat := by
  cases m with
  | wholeRegister => rfl
  | lowFourBits => exact Nat.mod_eq_of_lt h

/-- Settles O36: below 16 both values of `SHIFT_AMOUNT` give the same count, and nothing else looks at
the parameter. -/
theorem smallShiftsIgnoreShiftAmount : Obligations.SmallShiftsIgnoreShiftAmount := by
  unfold Obligations.SmallShiftsIgnoreShiftAmount
  intro s rd rs1 rs2 m hc
  have hreg : (s.withShift m).reg = s.reg := rfl
  constructor <;> refine exec_eq_mapNext (·.withShift m) ?_ fun e _ => by cases e <;> rfl
  · simp only [effectOf, lslResult, hreg, shiftCount_of_lt _ hc]
  · simp only [effectOf, lsrResult, hreg, shiftCount_of_lt _ hc]

theorem lessThan_of_msb_eq {a b : Word} (h : a.msb = b.msb) (p q : Bool) :
    lessThan p a b = lessThan q a b := by
  have hult (r : Bool) : lessThan r a b = a.ult b := by
    cases r with
    | true => exact BitVec.slt_eq_ult_of_msb_eq h
    | false => rfl
  rw [hult, hult]

/-- Settles O40: numbers of the same sign compare alike, and nothing else looks at the parameter. -/
theorem sameSignSltIgnoresSltSigned : Obligations.SameSignSltIgnoresSltSigned := by
  unfold Obligations.SameSignSltIgnoresSltSigned
  intro s rd rs1 rs2 b hmsb
  have hreg : (s.withSlt b).reg = s.reg := rfl
  refine exec_eq_mapNext (·.withSlt b) ?_ fun e _ => by cases e <;> rfl
  simp only [effectOf, sltResult, hreg, lessThan_of_msb_eq hmsb _ s.params.sltSigned]

end Sys2Proof.Machine

/-! LD and ST together, LUI and LLI together, the idioms, and the two informative tables against the
effects (spec/20_memory.md section 7, spec/44_load_immediate.md, spec/30_encoding.md section 9,
spec/45_control_signals.md). -/

namespace Sys2Proof.Machine

/-! ### LD and ST -/

theorem cell_eq_getD (s : State) (a : Word) :
    s.cell a = (Memory.read s.dmem a.toNat).getD (Config.unwrittenCell a) := by
  cases h : Memory.read s.dmem a.toNat with
  | none => exact cell_unlisted h
  | some v => exact cell_listed h

/-- Settles O25: the machine reads the free value, and the spec's step finds its base readable and its
cell not. -/
theorem ldOfUnwrittenCell : Obligations.LdOfUnwrittenCell := by
  unfold Obligations.LdOfUnwrittenCell
  refine ⟨fun s rd rs1 o hv hn => ?_, fun s w rd rs1 o hw hd hp hb hv hn => ?_⟩
  · rw [exec_ld_of_dataValid hv, cell_unlisted hn]
    exact ⟨_, rfl, writeReg_advance_writesOnly s rd _⟩
  · refine specStep_of_readFault hw ?_
    have hr : (Instr.ld rd rs1 o).operands.find? (fun q => !s.readable q) = none := by
      simp [Instr.operands, readable_fault hp, hb]
    rw [hd, readFault_of_readable hr,
      undefinedLoad_eq_some_iff.2 ⟨rfl, rfl, hv, cellReadable_eq_false_iff.2 ⟨hn, hp⟩⟩,
      Option.map_some]

/-- Settles O28: the store leaves the registers and the parameters, and its cell holds the word. The
readable base is not used (log entry 2). -/
theorem loadReturnsStoredValue : Obligations.LoadReturnsStoredValue := by
  unfold Obligations.LoadReturnsStoredValue
  intro s t rd rs2 rs1 rb o p h _ ha
  obtain ⟨hv, rfl⟩ := exec_st_eq_next h
  rw [← ha] at hv ⊢
  refine ⟨_, exec_ld_of_dataValid (s := (s.setCell _ _).advance) hv rd, ?_⟩
  rw [State.reg_advance]
  refine (State.reg_setReg_same ..).trans (congrArg fullReg (cell_listed ?_))
  exact Memory.read_write_same ..

/-! ### LUI and LLI on one register -/

theorem State.setReg_setReg_same (s : State) (r : RegId) (x y : Reg) :
    (s.setReg r x).setReg r y = s.setReg r y := by
  simp [State.setReg, Vector.set_set]

theorem State.setReg_self (s : State) (r : RegId) : s.setReg r (s.reg r) = s := by
  simp [State.setReg, State.reg]

theorem setReg_advance (s : State) (r : RegId) (x : Reg) :
    s.advance.setReg r x = (s.setReg r x).advance := rfl

theorem writeHigh_advance_writeLow (s : State) (rd : RegId) (h l : Byte) :
    (s.writeHigh rd h).advance.writeLow rd l = (s.writeReg rd (h ++ l)).advance := by
  rw [State.writeLow, State.writeHigh, State.reg_advance, State.reg_setReg_same, Reg.high_append,
    setReg_advance, State.setReg_setReg_same]; rfl

theorem writeLow_advance_writeHigh (s : State) (rd : RegId) (h l : Byte) :
    (s.writeLow rd l).advance.writeHigh rd h = (s.writeReg rd (h ++ l)).advance := by
  rw [State.writeHigh, State.writeLow, State.reg_advance, State.reg_setReg_same, Reg.low_append,
    setReg_advance, State.setReg_setReg_same]; rfl

/-- Settles O51: in either order the two write the whole register and advance twice. -/
theorem luiLliPairLoadsConstant : Obligations.LuiLliPairLoadsConstant := by
  unfold Obligations.LuiLliPairLoadsConstant
  intro s rd h l
  refine ⟨_, _, _, _, exec_lui rd h s, exec_lli rd l _, exec_lli rd l s, exec_lui rd h _, ?_⟩
  rw [writeHigh_advance_writeLow, writeLow_advance_writeHigh]
  obtain ⟨hdest, hothers, -⟩ := writeReg_advance_writesOnly s rd (h ++ l)
  exact ⟨rfl, hdest, hothers, rfl, rfl⟩

/-! ### The idioms -/

theorem highByte_append_lowByte (k : Word) : k.extractLsb' 8 8 ++ k.extractLsb' 0 8 = k :=
  Reg.high_append_low (fullReg k)

theorem fullReg_value_of_defined {x : Reg} (h : x.defined = true) : fullReg x.value = x := by
  obtain ⟨v, hi, lo⟩ := x
  simp only [Reg.defined, Bool.and_eq_true] at h
  obtain ⟨rfl, rfl⟩ := h
  rfl

theorem exec_idiomCopy (rd rs : RegId) (s : State) :
    exec (idiomCopy rd rs) s = .next (s.writeReg rd (s.reg rs).value).advance := by
  rw [idiomCopy, exec_or_eq_dataOp, dataOp, orResult, BitVec.or_self]

theorem exec_idiomCopyAnd (rd rs : RegId) (s : State) :
    exec (idiomCopyAnd rd rs) s = .next (s.writeReg rd (s.reg rs).value).advance := by
  rw [idiomCopyAnd, exec_and_eq_dataOp, dataOp, andResult, BitVec.and_self]

theorem exec_idiomClear (rd rs : RegId) (s : State) :
    exec (idiomClear rd rs) s = .next (s.writeReg rd 0).advance := by
  rw [idiomClear, exec, execSub, dataOp, subResult, sub_self]

/-- Settles O58. The copy of a defined register to itself is no change, and the jump of the stop is to
the pc. -/
theorem idiomsHaveTheirEffect : Obligations.IdiomsHaveTheirEffect := by
  unfold Obligations.IdiomsHaveTheirEffect
  intro s
  refine ⟨fun rd k => ?load, fun rd rs _ => ?copy, fun rd rs _ => ?clear, fun h0 => ?nop,
    fun o _ => ?branch, fun hl h4 => ?stop⟩
  case load =>
    refine ⟨_, _, _, _, rfl, exec_lui rd _ s, exec_lli rd _ _, ?_⟩
    rw [writeHigh_advance_writeLow, highByte_append_lowByte]
    exact State.reg_setReg_same ..
  case copy =>
    exact ⟨_, _, exec_idiomCopy rd rs s, writeReg_advance_writesOnly s rd _,
      exec_idiomCopyAnd rd rs s, writeReg_advance_writesOnly s rd _⟩
  case clear => exact ⟨_, exec_idiomClear rd rs s, writeReg_advance_writesOnly s rd _⟩
  case nop =>
    have hself : s.writeReg 0 (s.reg 0).value = s := by
      conv_rhs => rw [← State.setReg_self s 0, ← fullReg_value_of_defined h0]
      rfl
    exact (exec_idiomCopy 0 0 s).trans (by rw [hself])
  case branch => rw [idiomBranch, exec_beq, if_pos rfl]
  case stop => rw [idiomStop, exec_jmp, jumpTarget_jumpSlotOf hl h4]; rfl

/-! ### The ALU operations -/

/-- A zero difference is how the datapath sees equal operands. -/
theorem subResult_eq_zero_iff (a b : Word) : subResult a b = 0 ↔ a = b := sub_eq_zero

theorem lowByte_setWidth (b : Byte) : (b.setWidth 16).extractLsb' 0 8 = b := by
  apply BitVec.eq_of_toNat_eq
  have := b.isLt
  rw [BitVec.extractLsb'_toNat, BitVec.toNat_setWidth, Nat.shiftRight_zero]
  omega

theorem aluResult_lui (p : Config.Params) (a : Word) (b : Byte) :
    aluResult p .lui a (b.setWidth 16) = b ++ a.extractLsb' 0 8 := by
  rw [aluResult, lowByte_setWidth]

theorem aluResult_lli (p : Config.Params) (a : Word) (b : Byte) :
    aluResult p .lli a (b.setWidth 16) = a.extractLsb' 8 8 ++ b := by
  rw [aluResult, lowByte_setWidth]

/-- Settles O57: the effect of each instruction is made by the operation its opcode names. -/
theorem aluOperationsExplainEffects : Obligations.AluOperationsExplainEffects := by
  unfold Obligations.AluOperationsExplainEffects
  intro i s t op hop h
  cases i with
  | ld rd rs1 o | st rs2 rs1 o => cases hop; rfl
  | illegal w => cases hop
  | beq rs1 rs2 o =>
    cases hop
    rw [exec_beq] at h
    cases h
    simp only [aluResult, subResult_eq_zero_iff]; rfl
  | bne rs1 rs2 o =>
    cases hop
    rw [exec_bne] at h
    cases h
    simp only [aluResult, subResult_eq_zero_iff]; rfl
  | jmp imm => cases hop; rfl
  | lui rd b =>
    cases hop
    rw [exec_lui] at h
    cases h
    exact (congrArg Reg.value (State.reg_setReg_same ..)).trans (aluResult_lui ..).symm
  | lli rd b =>
    cases hop
    rw [exec_lli] at h
    cases h
    exact (congrArg Reg.value (State.reg_setReg_same ..)).trans (aluResult_lli ..).symm
  | inv rd rs1 =>
    cases hop
    cases h
    exact fun _ => congrArg Reg.value (State.reg_setReg_same ..)
  | add rd rs1 rs2 | sub rd rs1 rs2 | lsl rd rs1 rs2 | lsr rd rs1 rs2 | and rd rs1 rs2
  | or rd rs1 rs2 | slt rd rs1 rs2 =>
    cases hop
    cases h
    exact congrArg Reg.value (State.reg_setReg_same ..)

/-! ### The control words -/

theorem controlOf_eq_none_iff (i : Instr) : controlOf i = none ↔ ∃ w, i = .illegal w := by
  cases i with
  | illegal w => exact ⟨fun _ => ⟨w, rfl⟩, fun _ => rfl⟩
  | _ => exact ⟨nofun, nofun⟩

theorem branch_column {i : Instr} {c : ControlWord} (h : controlOf i = some c) :
    c.branch = true ↔ ∃ rs1 rs2 o, i = .beq rs1 rs2 o ∨ i = .bne rs1 rs2 o := by
  cases i with
  | beq rs1 rs2 o => cases h; exact ⟨fun _ => ⟨rs1, rs2, o, .inl rfl⟩, fun _ => rfl⟩
  | bne rs1 rs2 o => cases h; exact ⟨fun _ => ⟨rs1, rs2, o, .inr rfl⟩, fun _ => rfl⟩
  | _ => cases h <;> simp [loadControl, storeControl, dataControl, immControl, jumpControl]

theorem jump_column {i : Instr} {c : ControlWord} (h : controlOf i = some c) :
    c.jump = true ↔ ∃ imm, i = .jmp imm := by
  cases i with
  | jmp imm => cases h; exact ⟨fun _ => ⟨imm, rfl⟩, fun _ => rfl⟩
  | _ => cases h <;> simp [loadControl, storeControl, dataControl, immControl, branchControl]

theorem memWrite_column {i : Instr} {c : ControlWord} (h : controlOf i = some c) :
    c.memWrite = isStore i := by
  cases i <;> cases h <;> rfl

theorem memToReg_column {i : Instr} {c : ControlWord} (h : controlOf i = some c) :
    c.memToReg = isLoad i := by
  cases i <;> cases h <;> rfl

section
variable {w : Word} {i : Instr} {c : ControlWord} {op : AluOperation} {s t : State}

theorem dest_of_control (hi : Decodes w i) (hc : controlOf i = some c) :
    i.dest = if c.regWrite = true then some (destField c w) else none := by
  cases hi <;> cases hc <;> rfl

/-- Reg Write 1 and Memto Reg 0: the destination gets the ALU result. -/
theorem value_of_control (hi : Decodes w i) (hc : controlOf i = some c)
    (hop : aluOperationOf i = some op) (h : exec i s = .next t) (hw : c.regWrite = true)
    (hm : c.memToReg = false) : (t.reg (destField c w)).value =
      aluResult s.params op (s.reg (fieldA w)).value (aluSecondInput c s w) := by
  have hv := aluOperationsExplainEffects i s t op hop h
  cases hi with
  | ld => cases hc; cases hm
  | st | beq | bne | jmp => cases hc; cases hw
  | illegal => cases hc
  | inv => cases hc; exact hv _
  | add | sub | lsl | lsr | and | or | slt | lui | lli => cases hc; exact hv

/-- Memto Reg 1: the destination gets the cell at the ALU result. -/
theorem loaded_value_of_control (hi : Decodes w i) (hc : controlOf i = some c)
    (hop : aluOperationOf i = some op) (h : exec i s = .next t) (hm : c.memToReg = true) :
    (t.reg (destField c w)).value =
      (Memory.read s.dmem
        (aluResult s.params op (s.reg (fieldA w)).value (aluSecondInput c s w)).toNat).getD
      (Config.unwrittenCell
        (aluResult s.params op (s.reg (fieldA w)).value (aluSecondInput c s w))) := by
  rw [memToReg_column hc] at hm
  cases hi <;> cases hm
  cases hc
  cases hop
  rw [exec, execLd] at h
  obtain ⟨-, h⟩ := withCell_eq_next.1 h
  cases h
  rw [State.reg_advance]
  refine (congrArg Reg.value (State.reg_setReg_same ..)).trans ?_
  exact cell_eq_getD ..

/-- Mem Write 1: the cell at the ALU result gets the register in `I[8:6]`. -/
theorem stored_value_of_control (hi : Decodes w i) (hc : controlOf i = some c)
    (hop : aluOperationOf i = some op) (h : exec i s = .next t) (hm : c.memWrite = true) :
    Memory.read t.dmem
      (aluResult s.params op (s.reg (fieldA w)).value (aluSecondInput c s w)).toNat =
      some (s.reg (fieldB w)).value := by
  rw [memWrite_column hc] at hm
  cases hi <;> cases hm
  cases hc
  cases hop
  obtain ⟨-, rfl⟩ := exec_st_eq_next h
  exact Memory.read_write_same ..

/-- Branch 1: the zero of the ALU decides, for BEQ and BNE the opposite way. -/
theorem branch_of_control (hi : Decodes w i) (hc : controlOf i = some c)
    (hop : aluOperationOf i = some op) (h : exec i s = .next t) (hb : c.branch = true) :
    t.pc = if (aluResult s.params op (s.reg (fieldA w)).value (aluSecondInput c s w) = 0 ↔
        opField w = 11) then branchTarget s.pc (offset6Field w) else s.pc + 4 := by
  have hv := aluOperationsExplainEffects i s t op hop h
  obtain ⟨rs1, rs2, o, rfl | rfl⟩ := (branch_column hc).1 hb
  · cases hi with | beq hopc =>
    cases hc
    simp only [hopc, iff_true]; exact hv
  · cases hi with | bne hopc =>
    cases hc
    simp only [hopc, show ((12 : BitVec 4) = 11) = False by decide, iff_false, ite_not]; exact hv

theorem jump_of_control (hi : Decodes w i) (hc : controlOf i = some c)
    (h : exec i s = .next t) (hj : c.jump = true) : t.pc = jumpTarget (imm12Field w) := by
  obtain ⟨imm, rfl⟩ := (jump_column hc).1 hj
  cases hi
  cases h
  rfl

theorem advance_of_control (hc : controlOf i = some c) (h : exec i s = .next t)
    (hb : c.branch = false) (hj : c.jump = false) : t.pc = s.pc + 4 := by
  rw [← Bool.not_eq_true, branch_column hc] at hb
  rw [← Bool.not_eq_true, jump_column hc] at hj
  push Not at hb hj
  exact exec_pc_sequential h hb hj

end

/-- Settles O56, column by column. -/
theorem controlWordsAgreeWithEffects : Obligations.ControlWordsAgreeWithEffects := by
  unfold Obligations.ControlWordsAgreeWithEffects
  refine ⟨controlOf_eq_none_iff, fun i c hc => ?_, fun w c op s t hc hop h => ?_⟩
  · refine ⟨?_, memToReg_column hc, ?_, memWrite_column hc, branch_column hc, jump_column hc, ?_⟩
    · cases i <;> cases hc <;> rfl
    · cases i <;> cases hc <;> rfl
    · cases i <;> cases hc <;> exact ⟨_, rfl, rfl⟩
  · have hi := decodes w
    refine ⟨dest_of_control hi hc, fun hw q => ?_, value_of_control hi hc hop h,
      fun _ => loaded_value_of_control hi hc hop h, stored_value_of_control hi hc hop h,
      fun hm => exec_dmem_of_not_store (memWrite_column hc ▸ hm) h,
      branch_of_control hi hc hop h, jump_of_control hi hc h, advance_of_control hc h⟩
    refine onlyTheNamedRegisterIsWritten _ s t h q ?_
    rw [dest_of_control hi hc, if_neg (by rw [hw]; exact nofun)]
    exact nofun

end Sys2Proof.Machine
